-- ==== Sys2Proof/Word.lean ====
section
/-! DEFINITION. The fixed widths of the machine (00_scope.md R6). -/

namespace Sys2Proof

/-- An instruction word: 32 bits (R6, R60). -/
abbrev Word := BitVec 32

/-- A data cell, an operand value, an exit code: 8 bits, unsigned (R6). -/
abbrev Byte := BitVec 8

/-- The `opcode` field: 8 bits (R6). -/
abbrev Opcode := BitVec 8

/-- An operand field `a` or `b`, and the faulting address of a fault record: 12 bits (R6, R28). -/
abbrev Field12 := BitVec 12

end Sys2Proof
end

