-- ==== Sys2Proof/Machine/Alu.lean ====
section
/-! DEFINITION. The 8-bit unsigned results of the arithmetic executor (41_arithmetic.md R106): each is
computed exactly on integers and narrowed once. -/

namespace Sys2Proof.Machine

/-- The value kept of an exact result: its residue modulo 256 (R106). -/
def narrow (n : Int) : Byte :=
  BitVec.ofInt 8 n

/-- `(x + y) mod 256` (R101). -/
def aluAdd (x y : Byte) : Byte :=
  narrow ((x.toNat : Int) + y.toNat)

/-- `(x - y) mod 256` (R102). -/
def aluSub (x y : Byte) : Byte :=
  narrow ((x.toNat : Int) - y.toNat)

/-- `(x * y) mod 256` (R103). -/
def aluMul (x y : Byte) : Byte :=
  narrow ((x.toNat : Int) * y.toNat)

/-- `floor(x / y)`, for `y` not 0 (R104). -/
def aluDiv (x y : Byte) : Byte :=
  narrow ((x.toNat / y.toNat : Nat) : Int)

/-- `x mod y`, for `y` not 0 (R105). -/
def aluMod (x y : Byte) : Byte :=
  narrow ((x.toNat % y.toNat : Nat) : Int)

end Sys2Proof.Machine
end

