-- ==== Sys2Proof/Machine/Flags.lean ====
section
/-! DEFINITION. Flags: the core has none, neither carry nor overflow nor zero nor sign (10_state.md R25),
so no flag computation exists and nothing is declared here. Overflow is silent (41_arithmetic.md R106);
the 8-bit results are in Machine/Alu.lean. -/
end

