-- ==== Sys2Proof/Syntax.lean ====
section
/-! DEFINITION. Instructions as decoded (30_encoding.md): the field triple of the one format, the two
forms of operand `b`, and one constructor per row of the opcode table. -/

namespace Sys2Proof

/-- The decoder's output: the three fields of format OAB (R61, R62). -/
structure Fields where
  opcode : Opcode
  a : Field12
  b : Field12
  deriving DecidableEq, Repr

/-- Operand `b` as written in an instruction (R64). The address of a cell stays the 12-bit number `b`;
the three ignored bits `b[10:8]` of an immediate are kept so that no bit of the word is lost (R63, R68). -/
inductive Src where
  /-- Memory form, `b[11] = 0`. -/
  | cell (addr : Field12)
  /-- Immediate form, `b[11] = 1`: `ignored` is `b[10:8]`, `value` is `b[7:0]`. -/
  | imm (ignored : BitVec 3) (value : Byte)
  deriving DecidableEq, Repr

/-- The six defined instructions (R66). `a` is always the address of a data cell (R65). -/
inductive Instr where
  | add (a : Field12) (b : Src)
  | sub (a : Field12) (b : Src)
  | mul (a : Field12) (b : Src)
  | div (a : Field12) (b : Src)
  | mod (a : Field12) (b : Src)
  | exit (a : Field12) (b : Src)
  deriving DecidableEq, Repr

/-- The `a` field of an instruction. -/
def Instr.a : Instr → Field12
  | .add a _ => a
  | .sub a _ => a
  | .mul a _ => a
  | .div a _ => a
  | .mod a _ => a
  | .exit a _ => a

/-- The `b` operand of an instruction. -/
def Instr.b : Instr → Src
  | .add _ b => b
  | .sub _ b => b
  | .mul _ b => b
  | .div _ b => b
  | .mod _ b => b
  | .exit _ b => b

end Sys2Proof
end

