-- ==== Sys2Proof/Decode.lean ====
section
/-! DEFINITION. The instruction decoder (DEC) and, after it, the encoder (30_encoding.md R60 to R68). -/

namespace Sys2Proof

/-- Why a word is no instruction: its opcode is one of the 250 of R67. The decoder itself does not
fault (R62); the step raises InvalidInstruction later, after the bounds checks (R121). Safe. -/
inductive DecodeReject where
  | undefinedOpcode (f : Fields)
  deriving DecidableEq, Repr

/-- The lossless bit-split of R62: total, no failure. -/
def splitWord (w : Word) : Fields :=
  { opcode := w.extractLsb' 24 8, a := w.extractLsb' 12 12, b := w.extractLsb' 0 12 }

/-- The recomposition of R63: `(op << 24) | (a << 12) | b`. -/
def joinFields (f : Fields) : Word :=
  (f.opcode.setWidth 32 <<< 24) ||| (f.a.setWidth 32 <<< 12) ||| f.b.setWidth 32

/-- The immediate flag: bit 11 of the `b` field (R64, R85). -/
def immediateFlag (b : Field12) : Bool :=
  b[11]

/-- The two forms of the `b` field (R64): an immediate keeps `b[7:0]`, a cell address is the field itself. -/
def decodeSrc (b : Field12) : Src :=
  if immediateFlag b then .imm (b.extractLsb' 8 3) (b.extractLsb' 0 8) else .cell b

/-- The opcode map of R66 on a field triple; the other 250 opcodes are rejected by name (R67). -/
def decodeFields (f : Fields) : Except DecodeReject Instr :=
  if f.opcode = 0x00#8 then .ok (.add f.a (decodeSrc f.b))
  else if f.opcode = 0x01#8 then .ok (.sub f.a (decodeSrc f.b))
  else if f.opcode = 0x02#8 then .ok (.mul f.a (decodeSrc f.b))
  else if f.opcode = 0x03#8 then .ok (.div f.a (decodeSrc f.b))
  else if f.opcode = 0x04#8 then .ok (.mod f.a (decodeSrc f.b))
  else if f.opcode = 0x0F#8 then .ok (.exit f.a (decodeSrc f.b))
  else .error (.undefinedOpcode f)

/-- Decode of one instruction word, total on all `2^32` words (R62, R66). -/
def decode (w : Word) : Except DecodeReject Instr :=
  decodeFields (splitWord w)

/-- The opcode map of R66 read from mnemonic to number. -/
def Instr.opcode : Instr → Opcode
  | .add _ _ => 0x00#8
  | .sub _ _ => 0x01#8
  | .mul _ _ => 0x02#8
  | .div _ _ => 0x03#8
  | .mod _ _ => 0x04#8
  | .exit _ _ => 0x0F#8

/-- The six defined opcodes (R66). -/
def definedOpcode (op : Opcode) : Bool :=
  decide (op ∈ ([0x00#8, 0x01#8, 0x02#8, 0x03#8, 0x04#8, 0x0F#8] : List Opcode))

/-- The `b` field of an operand: flag 1, the three ignored bits and the value, or the address (R64). -/
def encodeSrc : Src → Field12
  | .cell addr => addr
  | .imm ignored value => 0x800#12 ||| (ignored.setWidth 12 <<< 8) ||| value.setWidth 12

/-- The field triple of an instruction. -/
def fieldsOf (i : Instr) : Fields :=
  { opcode := i.opcode, a := i.a, b := encodeSrc i.b }

/-- The instruction word of an instruction (R63). -/
def encode (i : Instr) : Word :=
  joinFields (fieldsOf i)

/-- The instruction the decoder reads from an opcode-table row's bits. An instruction is one 32-bit
value whose bit 0 is its least significant bit (R61) and the code space holds values, not bytes
(R45), so the table's numbering is the word's own. -/
def decodeTableWord (nbits w : Nat) : Option Instr :=
  match decode (BitVec.ofNat 32 (w % 2 ^ nbits)) with
  | .ok i => some i
  | .error _ => none

end Sys2Proof
end

