-- ==== Sys2Proof/Config.lean ====
section
/-! DEFINITION. What the environment or an implementation fixes, and what the model had to name.
No free value stands here: the spec leaves no result of an instruction open (60_exceptions.md R168). -/

namespace Sys2Proof

/-- What a data cell reads as when memory lists no entry for it.
DESIGN CHOICE (log 3), unsafe for statements about `State.reset` alone: the environment fills every cell (R181). -/
def Config.unlistedCell : Byte := 0

/-- `data_size` of `State.reset`: every cell an operand field can name (20_memory.md R42).
DESIGN CHOICE (log 2), unsafe for statements about `State.reset` alone: the environment supplies it (R7). -/
def Config.resetDataSize : Nat := 4096

end Sys2Proof
end

