-- ==== Sys2Proof/Machine/State.lean ====
section
/-! DEFINITION. The state of the core (10_state.md R33) with the run's constant inputs, its reset
value, and the two reasons a step can stop without a next state. -/

namespace Sys2Proof.Machine

/-- Data memory: the cells that differ from what an unlisted cell reads as, by rising address. -/
abbrev Memory := List Host.Cell

/-- The canonical form: addresses strictly rising, no entry equal to what an unlisted cell reads as. -/
abbrev Memory.wf (m : Memory) : Prop :=
  m.Pairwise (fun p q => p.1 < q.1) ∧ ∀ p ∈ m, p.2 ≠ Config.unlistedCell

/-- The run state (R26). -/
inductive Status where
  | running
  | exited
  | faulted
  deriving DecidableEq, Repr

/-- The operand field an InvalidMemoryAccess names (R28). -/
inductive FaultField where
  | a
  | b
  deriving DecidableEq, Repr

/-- The fault record (R28): one of the machine's four faults with its data (R150, R168). -/
inductive FaultRecord where
  /-- `pc` had reached `code_size` before a fetch (R151). -/
  | invalidPc (pc : Nat)
  /-- An operand field was out of bounds (R152). -/
  | invalidMemoryAccess (ipc : Nat) (field : FaultField) (addr : Field12)
  /-- The opcode is not defined (R153). -/
  | invalidInstruction (ipc : Nat) (opcode : Opcode)
  /-- The divisor of div or mod was 0 (R154). -/
  | divisionByZero (ipc : Nat) (opcode : Opcode)
  deriving DecidableEq, Repr

/-- Why a step answers no next state at all. The machine's own faults are not among these: raising one
is an effect the spec describes (R157), so it is a next state whose status is Faulted (log 6). -/
inductive Fault where
  /-- Raised by `step` in a halted state, where the spec says there is no step (R124, R158). Safe. -/
  | halted
  deriving DecidableEq, Repr

/-- What the model gives no meaning to. -/
inductive Refusal where
  /-- An instruction without a meaning, by its mnemonic. No arm of `exec` raises it. Safe. -/
  | notModelled (mnemonic : String)
  /-- Raised by `assertReset` while the status is Running, which the spec leaves outside (R185). Safe. -/
  | resetWhileRunning
  /-- Raised by `place` while the status is Running, when the environment may touch neither memory
  (R138, U4). Safe. -/
  | environmentDuringRun
  deriving DecidableEq, Repr

/-- The state of the core between two steps. -/
structure State where
  /-- Index of the next word to fetch (R21); a natural number (R8, log 1). -/
  pc : Nat
  /-- Data memory (R30). -/
  mem : Memory
  /-- The run state (R26). -/
  status : Status
  /-- The exit code, valid while the status is Exited (R27). -/
  exitCode : Byte
  /-- The fault record, present while the status is Faulted (R28). -/
  fault : Option FaultRecord
  /-- The code buffer, a constant input of the run (R31, log 5). -/
  code : List Word
  /-- `data_size`, a constant input of the run (R7, log 5). -/
  dataSize : Nat
  deriving DecidableEq, Repr

/-- `code_size`: the number of words in the code buffer (R7). -/
def State.codeSize (s : State) : Nat := s.code.length

/-- The machine right after reset (R180), with nothing loaded by the environment: no code, and cells
all at what an unlisted cell reads as (DESIGN CHOICE, logs 2, 3 and 4, unsafe). -/
def State.reset : State :=
  { pc := 0, mem := [], status := .running, exitCode := 0, fault := none,
    code := [], dataSize := Config.resetDataSize }

end Sys2Proof.Machine
end

