-- ==== Sys2Proof/Machine/Ops.lean ====
section
/-! DEFINITION. The named operations over memory and state: code and data access (20_memory.md),
fetch (R80 to R82), raising a fault (R157) and the halt by exit (R120). -/

namespace Sys2Proof.Machine

/-- The value a memory gives at an address. -/
def Memory.read : Memory → Nat → Byte
  | [], _ => Config.unlistedCell
  | (k, v) :: m, a => if k = a then v else Memory.read m a

/-- A memory without any entry at an address. -/
def Memory.erase : Memory → Nat → Memory
  | [], _ => []
  | (k, v) :: m, a => if k = a then Memory.erase m a else (k, v) :: Memory.erase m a

/-- A memory with an entry put before the first higher address. -/
def Memory.insert : Memory → Nat → Byte → Memory
  | [], a, v => [(a, v)]
  | (k, w) :: m, a, v => if a < k then (a, v) :: (k, w) :: m else (k, w) :: Memory.insert m a v

/-- The memory after a write; the canonical form is kept. -/
def Memory.write (m : Memory) (a : Nat) (v : Byte) : Memory :=
  if v = Config.unlistedCell then m.erase a else (m.erase a).insert a v

/-- The memory holding a sequence of bytes from an address up. -/
def Memory.ofBytesFrom : Nat → List Byte → Memory
  | _, [] => []
  | k, v :: vs =>
    if v = Config.unlistedCell then Memory.ofBytesFrom (k + 1) vs
    else (k, v) :: Memory.ofBytesFrom (k + 1) vs

/-- The cell at an address as the environment or an instruction sees it: nothing from `data_size` up (R42). -/
def State.cell (s : State) (addr : Nat) : Option Byte :=
  if addr < s.dataSize then some (s.mem.read addr) else none

/-- `CodeRead(i)`: defined for `i < code_size` only (R41). -/
def State.codeRead (s : State) (i : Nat) : Option Word :=
  s.code[i]?

/-- `MemRead(addr, 1)`, called only after the bounds check of `addr` (R43). -/
def State.memRead (s : State) (addr : Field12) : Byte :=
  s.mem.read addr.toNat

/-- `MemWrite(addr, 1, v)`, called only after the bounds check of `addr` (R44). -/
def State.memWrite (s : State) (addr : Field12) (v : Byte) : State :=
  { s with mem := s.mem.write addr.toNat v }

/-- `raise F(info)`: the machine halts by fault; nothing else changes (R157). The one way any of the
four faults is taken. -/
def State.raise (s : State) (r : FaultRecord) : State :=
  { s with status := .faulted, fault := some r }

/-- `halt_exit(v)`: the machine halts normally (R90, R120). There is no return from either halt (R158). -/
def State.haltExit (s : State) (v : Byte) : State :=
  { s with status := .exited, exitCode := v }

/-- The increment that is part of every fetch (R82). -/
def State.fetched (s : State) : State :=
  { s with pc := s.pc + 1 }

/-- The pc check and the fetch (R80, R81): the word at `pc`, or InvalidPc. -/
def fetch (s : State) : Except FaultRecord Word :=
  match s.codeRead s.pc with
  | some w => .ok w
  | none => .error (.invalidPc s.pc)

end Sys2Proof.Machine
end

