-- ==== Sys2Proof/Machine/Operands.lean ====
section
/-! DEFINITION. The operand resolver (RES, 40_fetch_decode_resolve.md R84 to R89) and the stages every
instruction shares up to the executor. -/

namespace Sys2Proof.Machine

/-- The resolved operand `B`, a tagged value (R86). -/
inductive Operand where
  | memoryRef (address : Field12)
  | immediate (value : Byte)
  deriving DecidableEq, Repr

/-- The bounds check of an address: the full field against the full `data_size` (R50, R84, R133). -/
def State.inBounds (s : State) (addr : Field12) : Bool :=
  decide (addr.toNat < s.dataSize)

/-- The resolver: `a` is checked first, for every word (R84); then a memory-form `b` (R88), while an
immediate is never checked (R87). `s` is the state at the start of the step, so its `pc` is `ipc`. -/
def resolve (a : Field12) (b : Src) (s : State) : Except FaultRecord Operand :=
  if !s.inBounds a then .error (.invalidMemoryAccess s.pc .a a)
  else
    match b with
    | .imm _ v => .ok (.immediate v)
    | .cell addr =>
      if s.inBounds addr then .ok (.memoryRef addr) else .error (.invalidMemoryAccess s.pc .b addr)

/-- The 8-bit value of a resolved operand, read before the instruction's own write (R86, R88). -/
def Operand.value (s : State) : Operand → Byte
  | .memoryRef addr => s.memRead addr
  | .immediate v => v

/-- One instruction from the increment of `pc` on (R82 to R90): resolve, then hand `B` and the state
after the fetch to the executor. `s` is the state at the start of the step. -/
def withOperand (a : Field12) (b : Src) (s : State) (executor : Byte → State → State) : State :=
  match resolve a b s with
  | .error r => s.fetched.raise r
  | .ok o => executor (o.value s) s.fetched

/-- The read-modify-write of cell `a` common to the arithmetic instructions (R100). -/
def State.update (s : State) (a : Field12) (f : Byte → Byte) : State :=
  s.memWrite a (f (s.memRead a))

end Sys2Proof.Machine
end

