-- ==== Sys2Proof/Machine/Arith.lean ====
section
/-! DEFINITION. The arithmetic instructions (41_arithmetic.md R100 to R107). -/

namespace Sys2Proof.Machine

/-- `add`: `A := A + B` (R101). -/
def execAdd (a : Field12) (b : Src) (s : State) : Host.Outcome State Fault Refusal :=
  .next (withOperand a b s fun y t => t.update a (aluAdd · y))

/-- `sub`: `A := A - B` (R102). -/
def execSub (a : Field12) (b : Src) (s : State) : Host.Outcome State Fault Refusal :=
  .next (withOperand a b s fun y t => t.update a (aluSub · y))

/-- `mul`: `A := A * B` (R103). -/
def execMul (a : Field12) (b : Src) (s : State) : Host.Outcome State Fault Refusal :=
  .next (withOperand a b s fun y t => t.update a (aluMul · y))

/-- `div`: DivisionByZero before any write when `B` is 0, else `A := A / B` (R104, R154). -/
def execDiv (a : Field12) (b : Src) (s : State) : Host.Outcome State Fault Refusal :=
  .next (withOperand a b s fun y t =>
    if y = 0#8 then t.raise (.divisionByZero s.pc 0x03#8) else t.update a (aluDiv · y))

/-- `mod`: DivisionByZero before any write when `B` is 0, else `A := A % B` (R105, R154). -/
def execMod (a : Field12) (b : Src) (s : State) : Host.Outcome State Fault Refusal :=
  .next (withOperand a b s fun y t =>
    if y = 0#8 then t.raise (.divisionByZero s.pc 0x04#8) else t.update a (aluMod · y))

end Sys2Proof.Machine
end

