-- ==== Sys2Proof/Machine/Exit.lean ====
section
/-! DEFINITION. The exit instruction and the 250 undefined opcodes (42_exit_and_invalid.md). -/

namespace Sys2Proof.Machine

/-- `exit`: halt with the value of `B`; `a` is bounds-checked and its cell not used (R120). -/
def execExit (a : Field12) (b : Src) (s : State) : Host.Outcome State Fault Refusal :=
  .next (withOperand a b s fun y t => t.haltExit y)

/-- A word whose opcode is not defined: InvalidInstruction once both operands have resolved (R121, R153). -/
def execUndefined (f : Fields) (s : State) : Host.Outcome State Fault Refusal :=
  .next (withOperand f.a (decodeSrc f.b) s fun _ t => t.raise (.invalidInstruction s.pc f.opcode))

end Sys2Proof.Machine
end

