-- ==== Sys2Proof/Machine/Dispatch.lean ====
section
/-! DEFINITION. One arm per instruction (30_encoding.md R66). `s` is the state at the start of the
step, its `pc` the index of the instruction; the meaning makes the fetch's increment itself (log 7). -/

namespace Sys2Proof.Machine

def exec (i : Instr) (s : State) : Host.Outcome State Fault Refusal :=
  match i with
  | .add a b => Sys2Proof.Machine.execAdd a b s
  | .sub a b => Sys2Proof.Machine.execSub a b s
  | .mul a b => Sys2Proof.Machine.execMul a b s
  | .div a b => Sys2Proof.Machine.execDiv a b s
  | .mod a b => Sys2Proof.Machine.execMod a b s
  | .exit a b => Sys2Proof.Machine.execExit a b s

end Sys2Proof.Machine
end

