-- ==== Sys2Proof/Machine/Step.lean ====
section
/-! DEFINITION. One step of the machine (40_fetch_decode_resolve.md R90). -/

namespace Sys2Proof.Machine

/-- A step: defined while Running (R90), a stop by name in a halted state (R124). The pc check and the
fetch come first (R80, R81); a word that is no instruction still goes through the resolver (R89, R121). -/
def step (s : State) : Host.Outcome State Fault Refusal :=
  match s.status with
  | .exited => .fault .halted
  | .faulted => .fault .halted
  | .running =>
    match fetch s with
    | .error r => .next (s.raise r)
    | .ok w =>
      match decode w with
      | .ok i => exec i s
      | .error (.undefinedOpcode f) => execUndefined f s

/-- The state with one instruction loaded where `step` fetches next, as the environment loads code
before a run (R130; logs 4 and 11): the word at `pc`, the code buffer long enough to hold it, Running. -/
def State.withFetchWord (s : State) (nbits w : Nat) : State :=
  { s with
    code := (s.code ++ List.replicate (s.pc + 1 - s.code.length) 0).set s.pc
      (BitVec.ofNat 32 (w % 2 ^ nbits))
    status := .running }

end Sys2Proof.Machine
end

