-- ==== Sys2Proof/Machine/Environment.lean ====
section
/-! DEFINITION. The embedding environment's side (49_interfaces.md, 70_reset_and_hazards.md): loading,
reset, the repetition of steps until the halt, and the result of a run. -/

namespace Sys2Proof.Machine

/-- The state at the start of `run(code, memory)`: code and data as supplied, the core at reset (R130,
R180, R181, R183). -/
def State.load (code : List Word) (data : List Byte) : State :=
  { pc := 0, mem := Memory.ofBytesFrom 0 data, status := .running, exitCode := 0, fault := none,
    code := code, dataSize := data.length }

/-- The environment replaces code and data before the reset that begins a new run (R138, R185); while
Running it never does, and the model refuses it by name (R138, U4, log 13). -/
def place (code : List Word) (data : List Byte) (s : State) : Host.Outcome State Fault Refusal :=
  match s.status with
  | .running => .refused .environmentDuringRun
  | .exited => .next { s with code := code, mem := Memory.ofBytesFrom 0 data, dataSize := data.length }
  | .faulted => .next { s with code := code, mem := Memory.ofBytesFrom 0 data, dataSize := data.length }

/-- The reset input (R136): from a halted state it begins a new run and touches neither memory (R180,
R181, R185); while Running it is outside the spec and refused by name (R185, log 12). -/
def assertReset (s : State) : Host.Outcome State Fault Refusal :=
  match s.status with
  | .running => .refused .resetWhileRunning
  | .exited => .next { s with pc := 0, status := .running, exitCode := 0, fault := none }
  | .faulted => .next { s with pc := 0, status := .running, exitCode := 0, fault := none }

/-- The state after at most `n` steps, fewer if the machine halts before (R90). -/
def runFor : Nat → State → State
  | 0, s => s
  | n + 1, s =>
    match step s with
    | .next t => runFor n t
    | .fault _ => s
    | .refused _ => s

/-- The result of a run: an exit code or one fault record (R131). -/
inductive RunResult where
  | exited (code : Byte)
  | faulted (record : FaultRecord)
  deriving DecidableEq, Repr

/-- The result a state shows; none while it is Running (R131). -/
def State.result (s : State) : Option RunResult :=
  match s.status with
  | .running => none
  | .exited => some (.exited s.exitCode)
  | .faulted => s.fault.map .faulted

/-- `run(code, memory)`: the halted state of the run; `code_size + 1` steps suffice (R125, R131). -/
def run (code : List Word) (data : List Byte) : State :=
  runFor (code.length + 1) (State.load code data)

end Sys2Proof.Machine
end

