-- ==== Sys2Proof/Machine/Ports.lean ====
section
/-! DEFINITION. The port list (49_interfaces.md R133 to R139): the result outputs as views of State, and
the transactions of one step on the code port and the data port. -/

namespace Sys2Proof.Machine

/-- The `status` output, 2 bits (R26, R137). -/
def statusPort (s : State) : BitVec 2 :=
  match s.status with
  | .running => 0
  | .exited => 1
  | .faulted => 2

/-- The record shown by the fault outputs: valid while Faulted (R137). -/
def shownFault (s : State) : Option FaultRecord :=
  match s.status with
  | .faulted => s.fault
  | .running => none
  | .exited => none

/-- The `exit_code` output: valid while Exited, else 0 (R137). -/
def exitCodePort (s : State) : Byte :=
  match s.status with
  | .exited => s.exitCode
  | .running => 0
  | .faulted => 0

/-- The `fault_tag` output, 2 bits (R137, R150). -/
def faultTagPort (s : State) : BitVec 2 :=
  match shownFault s with
  | some (.invalidPc _) => 0
  | some (.invalidMemoryAccess _ _ _) => 1
  | some (.invalidInstruction _ _) => 2
  | some (.divisionByZero _ _) => 3
  | none => 0

/-- The `fault_pc` output (R137); a natural number, as `pc` is (log 1). -/
def faultPcPort (s : State) : Nat :=
  match shownFault s with
  | some (.invalidPc pc) => pc
  | some (.invalidMemoryAccess ipc _ _) => ipc
  | some (.invalidInstruction ipc _) => ipc
  | some (.divisionByZero ipc _) => ipc
  | none => 0

/-- The `fault_field` output, 1 bit (R137). -/
def faultFieldPort (s : State) : BitVec 1 :=
  match shownFault s with
  | some (.invalidMemoryAccess _ .a _) => 0
  | some (.invalidMemoryAccess _ .b _) => 1
  | _ => 0

/-- The `fault_addr` output, 12 bits (R137). -/
def faultAddrPort (s : State) : Field12 :=
  match shownFault s with
  | some (.invalidMemoryAccess _ _ addr) => addr
  | _ => 0

/-- The `fault_opcode` output, 8 bits (R137). -/
def faultOpcodePort (s : State) : Opcode :=
  match shownFault s with
  | some (.invalidInstruction _ op) => op
  | some (.divisionByZero _ op) => op
  | _ => 0

/-- The `pc` output, for inspection after the halt (R24, R137); a natural number (log 1). -/
def pcPort (s : State) : Nat := s.pc

/-- One transaction on the code port or the data port (R134, R135). -/
inductive Transaction where
  | codeRead (index : Nat) (word : Word)
  | dataRead (addr : Field12) (value : Byte)
  | dataWrite (addr : Field12) (value : Byte)
  deriving DecidableEq, Repr

/-- The data read that a resolved operand needs: cell `b`, in memory form only (R139 (2)). -/
def operandReads (s : State) : Operand → List Transaction
  | .memoryRef addr => [.dataRead addr (s.memRead addr)]
  | .immediate _ => []

/-- The read and the write of cell `a` (R139 (3) and (4)). -/
def updateTransactions (s : State) (a : Field12) (f : Byte → Byte) : List Transaction :=
  [.dataRead a (s.memRead a), .dataWrite a (f (s.memRead a))]

/-- The executor's transactions on cell `a`, given `B`: none in a step that halts (R47, R139). -/
def executorTransactions (s : State) (i : Instr) (y : Byte) : List Transaction :=
  match i with
  | .add a _ => updateTransactions s a (aluAdd · y)
  | .sub a _ => updateTransactions s a (aluSub · y)
  | .mul a _ => updateTransactions s a (aluMul · y)
  | .div a _ => if y = 0#8 then [] else updateTransactions s a (aluDiv · y)
  | .mod a _ => if y = 0#8 then [] else updateTransactions s a (aluMod · y)
  | .exit _ _ => []

/-- The data transactions of a fetched word. Reads the spec calls unobservable (R47, U14) are left
out: cell `b` for an undefined opcode, cell `a` for exit and before DivisionByZero (log 15). -/
def dataTransactions (s : State) (w : Word) : List Transaction :=
  match decode w with
  | .error _ => []
  | .ok i =>
    match resolve i.a i.b s with
    | .error _ => []
    | .ok o => operandReads s o ++ executorTransactions s i (o.value s)

/-- The transactions of the step from `s`, in order (R139); none in a halted state. -/
def transactions (s : State) : List Transaction :=
  match s.status with
  | .exited => []
  | .faulted => []
  | .running =>
    match fetch s with
    | .error _ => []
    | .ok w => .codeRead s.pc w :: dataTransactions s w

end Sys2Proof.Machine
end

