-- ==== Sys2Proof/Machine/Pseudocode.lean ====
section
/-! DEFINITION. The pseudocode of 40_fetch_decode_resolve.md R90, transcribed line by line on natural
numbers and total functions, apart from the model's decoder, resolver and executor. It is what the
step is compared with, not a part of the machine. -/

namespace Sys2Proof.Machine

/-- The state as the pseudocode speaks of it. -/
structure Abstract where
  pc : Nat
  code : Nat → Nat
  codeSize : Nat
  mem : Nat → Nat
  dataSize : Nat
  status : Status
  exitCode : Nat
  fault : Option FaultRecord

/-- `raise F(info)` (R90, R157). -/
def Abstract.raise (p : Abstract) (r : FaultRecord) : Abstract :=
  { p with status := .faulted, fault := some r }

/-- `MemWrite(a, 1, v)` (R44). -/
def Abstract.memWrite (p : Abstract) (a v : Nat) : Abstract :=
  { p with mem := fun i => if i = a then v else p.mem i }

/-- The ALU lines of R90; `ipc`, `opcode`, `a` and `bval` as computed before. -/
def Abstract.alu (p : Abstract) (ipc opcode a bval : Nat) : Abstract :=
  if opcode = 0x00 then p.memWrite a ((p.mem a + bval) % 256)
  else if opcode = 0x01 then
    p.memWrite a (if bval ≤ p.mem a then p.mem a - bval else p.mem a + 256 - bval)
  else if opcode = 0x02 then p.memWrite a (p.mem a * bval % 256)
  else if opcode = 0x03 then
    if bval = 0 then p.raise (.divisionByZero ipc (BitVec.ofNat 8 opcode))
    else p.memWrite a (p.mem a / bval)
  else if opcode = 0x04 then
    if bval = 0 then p.raise (.divisionByZero ipc (BitVec.ofNat 8 opcode))
    else p.memWrite a (p.mem a - bval * (p.mem a / bval))
  else if opcode = 0x0F then { p with status := .exited, exitCode := bval }
  else p.raise (.invalidInstruction ipc (BitVec.ofNat 8 opcode))

/-- The RES lines of R90, then the ALU lines. -/
def Abstract.resolved (p : Abstract) (ipc opcode a b : Nat) : Abstract :=
  if p.dataSize ≤ a then p.raise (.invalidMemoryAccess ipc .a (BitVec.ofNat 12 a))
  else if b / 2 ^ 11 % 2 = 1 then p.alu ipc opcode a (b % 256)
  else if p.dataSize ≤ b then p.raise (.invalidMemoryAccess ipc .b (BitVec.ofNat 12 b))
  else p.alu ipc opcode a (p.mem b)

/-- `Step` of R90: the PCC and DEC lines, then the rest. -/
def Abstract.step (p : Abstract) : Abstract :=
  if p.codeSize ≤ p.pc then p.raise (.invalidPc p.pc)
  else
    let word := p.code p.pc
    Abstract.resolved { p with pc := p.pc + 1 } p.pc
      (word / 2 ^ 24 % 2 ^ 8) (word / 2 ^ 12 % 2 ^ 12) (word % 2 ^ 12)

end Sys2Proof.Machine
end

