-- ==== Sys2Proof/Safety.lean ====
section
/-! DEFINITION. What the statements speak of: the invariant of the state, and the observable views of
an operand, a state and a step's memory effect. -/

namespace Sys2Proof.Machine

/-- Every listed cell exists and the list is in canonical form (R42). -/
abbrev State.memOk (s : State) : Prop :=
  s.mem.wf ∧ ∀ p ∈ s.mem, p.1 < s.dataSize

/-- The value an operand `b` has in a state, where it has one: an immediate always, a cell if it exists (R64). -/
def operandValue (s : State) : Src → Option Byte
  | .imm _ v => some v
  | .cell addr => s.cell addr.toNat

/-- `Bval` of a word, where both of the resolver's bounds checks pass (R84, R88, R90). -/
def State.resolvedValue (s : State) (w : Word) : Option Byte :=
  if (splitWord w).a.toNat < s.dataSize then operandValue s (decodeSrc (splitWord w).b) else none

/-- The word at `ipc`, the last one fetched: `pc` has moved one past it (R24). -/
def State.lastWord (s : State) (ipc : Nat) : Option Word :=
  if s.pc = ipc + 1 then s.codeRead ipc else none

/-- The condition under which each record is made, read back from the record: the check that failed
and those before it that passed (R28, R151 to R155). The fault left memory as it was (R156), so the
operand's value can be read again after it. -/
def State.recordOk (s : State) : FaultRecord → Bool
  | .invalidPc pc => decide (pc = s.codeSize ∧ s.pc = pc)
  | .invalidMemoryAccess ipc .a addr =>
    match s.lastWord ipc with
    | none => false
    | some w => decide (addr = (splitWord w).a ∧ s.dataSize ≤ addr.toNat)
  | .invalidMemoryAccess ipc .b addr =>
    match s.lastWord ipc with
    | none => false
    | some w =>
      decide (addr = (splitWord w).b ∧ addr.toNat < 2048 ∧ s.dataSize ≤ addr.toNat ∧
        (splitWord w).a.toNat < s.dataSize)
  | .invalidInstruction ipc op =>
    match s.lastWord ipc with
    | none => false
    | some w =>
      decide (op = (splitWord w).opcode ∧ definedOpcode op = false ∧ (s.resolvedValue w).isSome = true)
  | .divisionByZero ipc op =>
    match s.lastWord ipc with
    | none => false
    | some w =>
      decide (op = (splitWord w).opcode ∧ (op = 0x03#8 ∨ op = 0x04#8) ∧ s.resolvedValue w = some 0#8)

/-- The result registers agree with the status (R24, R26 to R28): after an exit the last word is an
exit whose checks passed, and `exit_code` is the value of its `B` (R27, R120). -/
def State.resultOk (s : State) : Bool :=
  match s.status with
  | .running => decide (s.exitCode = 0 ∧ s.fault = none)
  | .exited =>
    match s.lastWord (s.pc - 1) with
    | none => false
    | some w =>
      decide ((splitWord w).opcode = 0x0F#8 ∧ s.fault = none ∧ s.resolvedValue w = some s.exitCode)
  | .faulted =>
    match s.fault with
    | none => false
    | some r => decide (s.exitCode = 0) && s.recordOk r

/-- The invariant: memory canonical and in range, `pc` at most `code_size` (R22, C6), results agreeing
with the status. -/
abbrev State.Inv (s : State) : Prop :=
  s.memOk ∧ s.pc ≤ s.codeSize ∧ s.resultOk = true

/-- The state after an arithmetic instruction that stored `r` in cell `a`: `pc` one further, cell `a`
holding `r`, every other cell and all else as before (R100). -/
def Stored (s t : State) (a : Field12) (r : Byte) : Prop :=
  t.pc = s.pc + 1 ∧ t.status = s.status ∧ t.exitCode = s.exitCode ∧ t.fault = s.fault ∧
  t.code = s.code ∧ t.dataSize = s.dataSize ∧
  t.cell a.toNat = some r ∧ ∀ addr, addr ≠ a.toNat → t.cell addr = s.cell addr

/-- The state after the instruction at `s.pc` raised a fault: fetched, halted with the record, every
cell and all else as before (R156, R157; `pc` by R24). -/
def RaisedAfterFetch (s t : State) (r : FaultRecord) : Prop :=
  t.pc = s.pc + 1 ∧ t.status = .faulted ∧ t.exitCode = s.exitCode ∧ t.fault = some r ∧
  t.code = s.code ∧ t.dataSize = s.dataSize ∧ ∀ addr, t.cell addr = s.cell addr

/-- The state as the pseudocode of R90 sees it. -/
def State.abstract (s : State) : Abstract :=
  { pc := s.pc, code := fun i => ((s.codeRead i).getD 0).toNat, codeSize := s.codeSize,
    mem := fun i => (s.mem.read i).toNat, dataSize := s.dataSize, status := s.status,
    exitCode := s.exitCode.toNat, fault := s.fault }

/-- The transactions `ts` are those of a step from `s` to `t`, in the order of R139: none if the pc
check fails, else the code read at `pc` (R134); the data read of cell `b`, for a memory form once both
bounds checks passed (left out for an undefined opcode, log 15); then, in a step that does not halt,
the data read and the data write of cell `a` of an arithmetic word. Reads show the cell before the
step, the write the cell after it, and cells not written are as before. -/
def AccountedFor (s t : State) (ts : List Transaction) : Prop :=
  (∀ addr, (∀ a v, .dataWrite a v ∈ ts → a.toNat ≠ addr) → t.cell addr = s.cell addr) ∧
  match s.codeRead s.pc with
  | none => ts = []
  | some w =>
    let f := splitWord w
    ∃ readB updateA : List Transaction, ts = .codeRead s.pc w :: (readB ++ updateA) ∧
      (if f.b[11] = false ∧ f.a.toNat < s.dataSize ∧ f.b.toNat < s.dataSize ∧
          definedOpcode f.opcode = true then
        ∃ y, s.cell f.b.toNat = some y ∧ readB = [.dataRead f.b y]
      else readB = []) ∧
      (if t.status = .running then
        f.opcode.toNat ≤ 4 ∧ ∃ x r, s.cell f.a.toNat = some x ∧ t.cell f.a.toNat = some r ∧
          updateA = [.dataRead f.a x, .dataWrite f.a r]
      else updateA = [])

/-- The state a step or an instruction answers, where it answers one. -/
def nextState : Host.Outcome State Fault Refusal → Option State
  | .next t => some t
  | .fault _ => none
  | .refused _ => none

end Sys2Proof.Machine
end

