-- ==== Sys2Proof/WellFormed.lean ====
section
/-! DEFINITION. Which instructions have an encoding. The field widths are in the types; the one check
left is that a memory-form `b` has its bit 11 clear, else its word would be an immediate (R42, R64). -/

namespace Sys2Proof

/-- A memory-form `b` is at most `0x7FF` (R64); an immediate always has an encoding. -/
def Src.wellFormed : Src → Bool
  | .cell addr => decide (addr.toNat ≤ 0x7FF)
  | .imm _ _ => true

/-- The instruction is the meaning of some word. -/
def Instr.wellFormed : Instr → Bool
  | .add _ b => b.wellFormed
  | .sub _ b => b.wellFormed
  | .mul _ b => b.wellFormed
  | .div _ b => b.wellFormed
  | .mod _ b => b.wellFormed
  | .exit _ b => b.wellFormed

end Sys2Proof
end

