-- ==== Sys2Proof/Certificates/Slice0/Obligations.lean ====
section
/-! DEFINITION. The statements for the provers. Each docstring names the rule or section of spec/ it
formalises, and the decision of 92_eei_decisions.md it rests on where it rests on one. -/

open Sys2Proof Sys2Proof.Machine

/-! ### Decoding -/

/-- 30_encoding.md R62: the three fields by shifts and masks, for every word. -/
def Obligations.FieldsAreShiftsAndMasks : Prop :=
  ∀ w : Word,
    (splitWord w).opcode.toNat = (w.toNat >>> 24) &&& 0xFF ∧
    (splitWord w).a.toNat = (w.toNat >>> 12) &&& 0xFFF ∧
    (splitWord w).b.toNat = w.toNat &&& 0xFFF

/-- 30_encoding.md section 1: split and recomposition are inverse, and the recomposed word is the sum
of the three fields at their places. That it holds for words that are no instruction is the spec's own
inference (conflict C7). -/
def Obligations.SplitAndJoinAreInverse : Prop :=
  (∀ w : Word, joinFields (splitWord w) = w) ∧
  (∀ f : Fields, splitWord (joinFields f) = f) ∧
  (∀ f : Fields, (joinFields f).toNat = f.opcode.toNat * 2 ^ 24 + f.a.toNat * 2 ^ 12 + f.b.toNat)

/-- 30_encoding.md sections 1 to 4: decoding an encoded well-formed instruction gives it back; a word
that decodes is the encoding of a well-formed instruction; the words that do not are those of the 250
undefined opcodes. The constructors are the model's (log 16). -/
def Obligations.DecodeEncodeAgree : Prop :=
  (∀ i : Instr, i.wellFormed = true → decode (encode i) = .ok i) ∧
  (∀ (w : Word) (i : Instr), decode w = .ok i → i.wellFormed = true ∧ encode i = w) ∧
  (∀ w : Word, (∃ r, decode w = .error r) ↔
    (splitWord w).opcode ∉ ([0x00#8, 0x01#8, 0x02#8, 0x03#8, 0x04#8, 0x0F#8] : List Opcode))

/-- 95_test_vectors.md V-DEC and section 4: a few words of the spec decode to the instructions it names. -/
def Obligations.SampleWordsDecode : Prop :=
  decode 0x00000805 = .ok (.add 0 (.imm 0 5)) ∧
  decode 0x01002805 = .ok (.sub 2 (.imm 0 5)) ∧
  decode 0x02002803 = .ok (.mul 2 (.imm 0 3)) ∧
  decode 0x03001900 = .ok (.div 1 (.imm 1 0)) ∧
  decode 0x04FFF7FF = .ok (.mod 4095 (.cell 2047)) ∧
  decode 0x0F000001 = .ok (.exit 0 (.cell 1))

/-- 30_encoding.md section 4 (i), section 2: two words that differ in the ignored bits `b[10:8]` of an
immediate alone do the same in every state. -/
def Obligations.IgnoredImmediateBitsChangeNothing : Prop :=
  ∀ (op : Opcode) (a b b' : Field12) (i i' : Instr) (s : State),
    b[11] = true → b'[11] = true → b.extractLsb' 0 8 = b'.extractLsb' 0 8 →
    decodeFields { opcode := op, a := a, b := b } = .ok i →
    decodeFields { opcode := op, a := a, b := b' } = .ok i' →
    exec i s = exec i' s

/-! ### The resolver -/

/-- 40_fetch_decode_resolve.md R87: an immediate is the low byte of the field in every state, whatever
`data_size` and memory are, and never an out-of-bounds `b`. -/
def Obligations.ImmediateIsLowByteInEveryState : Prop :=
  ∀ (a b : Field12) (s : State), b[11] = true →
    (a.toNat < s.dataSize →
      resolve a (decodeSrc b) s = .ok (.immediate (BitVec.ofNat 8 (b.toNat &&& 0xFF)))) ∧
    (∀ ipc addr, resolve a (decodeSrc b) s ≠ .error (.invalidMemoryAccess ipc .b addr))

/-- 40_fetch_decode_resolve.md section 3: a memory-form `b` is checked after `a` and then names the cell
whose present value is `B`. The record's `ipc` is decision D5, its field and address D9. -/
def Obligations.MemoryFormReadsItsCell : Prop :=
  ∀ (a b : Field12) (s : State), b[11] = false → a.toNat < s.dataSize →
    (b.toNat < s.dataSize → ∃ o, resolve a (decodeSrc b) s = .ok o ∧ o = .memoryRef b ∧
      s.cell b.toNat = some (o.value s)) ∧
    (s.dataSize ≤ b.toNat → resolve a (decodeSrc b) s = .error (.invalidMemoryAccess s.pc .b b))

/-! ### The step -/

/-- 40_fetch_decode_resolve.md section 4: a step runs the decoded instruction on the state at its
start; the instruction's meaning holds the fetch's increment of `pc` (log 7). That `pc` is one further
after exit and after a fault too is decision D4 (log 8). -/
def Obligations.StepRunsDecodedInstruction : Prop :=
  ∀ (s : State) (w : Word) (i : Instr), s.status = .running → s.codeRead s.pc = some w →
    decode w = .ok i → i.wellFormed = true →
    step s = exec i s ∧ ∃ t, exec i s = .next t ∧ t.pc = s.pc + 1

/-- 40_fetch_decode_resolve.md section 1: the pc check and the increment. That InvalidPc records the pc
is decisions D5 and D9, that the increment belongs to the fetch, so that a halting step keeps it and
InvalidPc does not make it, is D4 (log 8). -/
def Obligations.PcCheckBeforeEveryFetch : Prop :=
  ∀ s : State, s.status = .running →
    (s.codeSize ≤ s.pc →
      step s = .next { s with status := .faulted, fault := some (.invalidPc s.pc) }) ∧
    (s.pc < s.codeSize → ∃ t, step s = .next t ∧ t.pc = s.pc + 1)

/-- 42_exit_and_invalid.md section 5 and 60_exceptions.md section 10: every Running state has a next
state, and there is a step in no other. That the missing step is the stop named halted is log 6. -/
def Obligations.StepsExactlyWhileRunning : Prop :=
  ∀ s : State, (s.status = .running ↔ ∃ t, step s = .next t) ∧
    (s.status ≠ .running ↔ step s = .fault .halted)

/-- 42_exit_and_invalid.md R122: straight-line code; only an exit or a fault leaves it. -/
def Obligations.CodeRunsStraightLine : Prop :=
  (∀ s t : State, step s = .next t → t.status = .running → t.pc = s.pc + 1) ∧
  (∀ s t : State, step s = .next t → t.status ≠ .running →
    (t.status = .exited ∧ ∃ w, s.codeRead s.pc = some w ∧ (splitWord w).opcode = 0x0F#8) ∨
    (t.status = .faulted ∧ ∃ r, t.fault = some r)) ∧
  (∀ (k : Nat) (s t : State), s.status = .running →
    Host.Core.run Sys2Proof.core k s = .next t → t.status = .running → t.pc = s.pc + k)

/-- 40_fetch_decode_resolve.md section 3 and 60_exceptions.md section 2: the record a step writes is
that of the first check that fails. The order is decision D6, the check of `a` for exit and undefined
opcodes D7 (log 9), the data of the records D5 and D9 (log 8). -/
def Obligations.FirstFailedCheckIsRecorded : Prop :=
  ∀ s t : State, s.status = .running → s.fault = none → step s = .next t →
    t.fault =
      match s.codeRead s.pc with
      | none => some (.invalidPc s.pc)
      | some w =>
        let f := splitWord w
        if s.dataSize ≤ f.a.toNat then some (.invalidMemoryAccess s.pc .a f.a)
        else if f.b.toNat < 0x800 ∧ s.dataSize ≤ f.b.toNat then
          some (.invalidMemoryAccess s.pc .b f.b)
        else if f.opcode ∉ ([0x00#8, 0x01#8, 0x02#8, 0x03#8, 0x04#8, 0x0F#8] : List Opcode) then
          some (.invalidInstruction s.pc f.opcode)
        else if (f.opcode = 0x03#8 ∨ f.opcode = 0x04#8) ∧ operandValue s (decodeSrc f.b) = some 0#8 then
          some (.divisionByZero s.pc f.opcode)
        else none

/-- 40_fetch_decode_resolve.md section 4: the step is the spec's whole-step pseudocode, seen through
`State.abstract`. The pseudocode is the spec's derivation and carries its decisions D4 to D7, D9 and
D18 (logs 8 and 9). -/
def Obligations.StepRefinesPseudocode : Prop :=
  ∀ s : State, s.status = .running → ∃ t, step s = .next t ∧ t.abstract = s.abstract.step

/-- 42_exit_and_invalid.md section 5: from every Running state the run halts within the steps that are
left, and a run from the start has a result. The bound is the spec's derivation. -/
def Obligations.EveryRunEnds : Prop :=
  (∀ s : State, s.status = .running → ∃ (k : Nat) (t : State), k ≤ s.codeSize - s.pc + 1 ∧
    Host.Core.run Sys2Proof.core k s = .next t ∧ t.status ≠ .running) ∧
  (∀ (code : List Word) (data : List Byte), ∃ r, (run code data).result = some r)

/-! ### Arithmetic instructions -/

/-- 41_arithmetic.md R101, for both forms of `B`, `b = a` included. -/
def Obligations.AddStoresSumModulo256 : Prop :=
  ∀ (a : Field12) (b : Src) (s : State) (x y : Byte),
    s.cell a.toNat = some x → operandValue s b = some y →
    (encode (.add a b)).toNat = 0x00 * 2 ^ 24 + a.toNat * 2 ^ 12 + (encodeSrc b).toNat ∧
    ∃ t, exec (.add a b) s = .next t ∧ Stored s t a (BitVec.ofNat 8 ((x.toNat + y.toNat) % 256))

/-- 41_arithmetic.md R102, for both forms of `B`, `b = a` included. -/
def Obligations.SubStoresDifferenceModulo256 : Prop :=
  ∀ (a : Field12) (b : Src) (s : State) (x y : Byte),
    s.cell a.toNat = some x → operandValue s b = some y →
    (encode (.sub a b)).toNat = 0x01 * 2 ^ 24 + a.toNat * 2 ^ 12 + (encodeSrc b).toNat ∧
    ∃ t, exec (.sub a b) s = .next t ∧
      Stored s t a
        (BitVec.ofNat 8 (if y.toNat ≤ x.toNat then x.toNat - y.toNat else x.toNat + 256 - y.toNat))

/-- 41_arithmetic.md R103, for both forms of `B`, `b = a` included. -/
def Obligations.MulStoresLowByteOfProduct : Prop :=
  ∀ (a : Field12) (b : Src) (s : State) (x y : Byte),
    s.cell a.toNat = some x → operandValue s b = some y →
    (encode (.mul a b)).toNat = 0x02 * 2 ^ 24 + a.toNat * 2 ^ 12 + (encodeSrc b).toNat ∧
    ∃ t, exec (.mul a b) s = .next t ∧ Stored s t a (BitVec.ofNat 8 (x.toNat * y.toNat % 256))

/-- 41_arithmetic.md section 2, div: the quotient, or DivisionByZero and no write. The record's data
are decisions D5 and D9, the `pc` after the fault D4. -/
def Obligations.DivStoresQuotientOrFaults : Prop :=
  ∀ (a : Field12) (b : Src) (s : State) (x y : Byte),
    s.cell a.toNat = some x → operandValue s b = some y →
    (encode (.div a b)).toNat = 0x03 * 2 ^ 24 + a.toNat * 2 ^ 12 + (encodeSrc b).toNat ∧
    (y ≠ 0#8 → ∃ t, exec (.div a b) s = .next t ∧ Stored s t a (BitVec.ofNat 8 (x.toNat / y.toNat))) ∧
    (y = 0#8 → ∃ t, exec (.div a b) s = .next t ∧ RaisedAfterFetch s t (.divisionByZero s.pc 0x03#8))

/-- 41_arithmetic.md section 2, mod: the remainder, or DivisionByZero and no write. The record's data
are decisions D5 and D9, the `pc` after the fault D4. -/
def Obligations.ModStoresRemainderOrFaults : Prop :=
  ∀ (a : Field12) (b : Src) (s : State) (x y : Byte),
    s.cell a.toNat = some x → operandValue s b = some y →
    (encode (.mod a b)).toNat = 0x04 * 2 ^ 24 + a.toNat * 2 ^ 12 + (encodeSrc b).toNat ∧
    (y ≠ 0#8 → ∃ t, exec (.mod a b) s = .next t ∧
      Stored s t a (BitVec.ofNat 8 (x.toNat - y.toNat * (x.toNat / y.toNat)))) ∧
    (y = 0#8 → ∃ t, exec (.mod a b) s = .next t ∧ RaisedAfterFetch s t (.divisionByZero s.pc 0x04#8))

/-- 41_arithmetic.md section 3: one cell as both operands. The spec derives the results; the faults'
data are decisions D4, D5 and D9. -/
def Obligations.SameCellTwiceReadsOldValue : Prop :=
  ∀ (a : Field12) (s : State) (x : Byte), s.cell a.toNat = some x →
    (∃ t, exec (.add a (.cell a)) s = .next t ∧ Stored s t a (BitVec.ofNat 8 (2 * x.toNat % 256))) ∧
    (∃ t, exec (.sub a (.cell a)) s = .next t ∧ Stored s t a 0) ∧
    (∃ t, exec (.mul a (.cell a)) s = .next t ∧
      Stored s t a (BitVec.ofNat 8 (x.toNat * x.toNat % 256))) ∧
    (x ≠ 0#8 → (∃ t, exec (.div a (.cell a)) s = .next t ∧ Stored s t a 1) ∧
      (∃ t, exec (.mod a (.cell a)) s = .next t ∧ Stored s t a 0)) ∧
    (x = 0#8 →
      (∃ t, exec (.div a (.cell a)) s = .next t ∧ RaisedAfterFetch s t (.divisionByZero s.pc 0x03#8)) ∧
      (∃ t, exec (.mod a (.cell a)) s = .next t ∧ RaisedAfterFetch s t (.divisionByZero s.pc 0x04#8)))

/-- 41_arithmetic.md section 2, mod, corner cases: quotient times divisor plus remainder is the dividend. -/
def Obligations.QuotientAndRemainderRecompose : Prop :=
  ∀ (a : Field12) (b : Src) (s : State) (x y : Byte),
    s.cell a.toNat = some x → operandValue s b = some y → y ≠ 0#8 →
    ∃ t u q r, exec (.div a b) s = .next t ∧ exec (.mod a b) s = .next u ∧
      t.cell a.toNat = some q ∧ u.cell a.toNat = some r ∧
      q.toNat * y.toNat + r.toNat = x.toNat ∧ r.toNat < y.toNat

/-- 30_encoding.md section 6: the identities that act as a no-op and those that clear a cell, on an
existing cell. The no-ops leave the whole state as it was but for `pc`; that they leave the list that
holds memory so, and the premise on its form, are the model's (log 3). -/
def Obligations.NoOpAndClearIdentities : Prop :=
  ∀ (a : Field12) (hi : BitVec 3) (s : State), s.mem.wf → a.toNat < s.dataSize →
    exec (.add a (.imm hi 0)) s = .next { s with pc := s.pc + 1 } ∧
    exec (.sub a (.imm hi 0)) s = .next { s with pc := s.pc + 1 } ∧
    exec (.mul a (.imm hi 1)) s = .next { s with pc := s.pc + 1 } ∧
    exec (.div a (.imm hi 1)) s = .next { s with pc := s.pc + 1 } ∧
    (∃ t, exec (.mul a (.imm hi 0)) s = .next t ∧ Stored s t a 0) ∧
    (∃ t, exec (.mod a (.imm hi 1)) s = .next t ∧ Stored s t a 0)

/-! ### exit and the undefined opcodes -/

/-- 42_exit_and_invalid.md section 1: exit halts with the value of `B` and changes nothing else. That
cell `a` is untouched is decision D18, the `pc` after the halt D4. -/
def Obligations.ExitHaltsWithOperandValue : Prop :=
  ∀ (a : Field12) (b : Src) (s : State) (y : Byte),
    a.toNat < s.dataSize → operandValue s b = some y →
    (encode (.exit a b)).toNat = 0x0F * 2 ^ 24 + a.toNat * 2 ^ 12 + (encodeSrc b).toNat ∧
    exec (.exit a b) s = .next { s with pc := s.pc + 1, status := .exited, exitCode := y }

/-- 42_exit_and_invalid.md section 2: an undefined opcode whose operands pass the checks faults and
changes no cell. That the checks come first is decision D6, the record D5 and D9, the `pc` D4. -/
def Obligations.UndefinedOpcodeFaults : Prop :=
  ∀ (s : State) (w : Word) (y : Byte), s.status = .running → s.codeRead s.pc = some w →
    (splitWord w).opcode ∉ ([0x00#8, 0x01#8, 0x02#8, 0x03#8, 0x04#8, 0x0F#8] : List Opcode) →
    (splitWord w).a.toNat < s.dataSize → operandValue s (decodeSrc (splitWord w).b) = some y →
    ∃ t, step s = .next t ∧ RaisedAfterFetch s t (.invalidInstruction s.pc (splitWord w).opcode)

/-! ### Bounds faults -/

/-- 40_fetch_decode_resolve.md section 3 and 60_exceptions.md section 1: `a` out of bounds faults for
every instruction and for every word, undefined opcodes included (decision D7), before any change of
memory. The record is decisions D5 and D9, the `pc` D4. -/
def Obligations.OutOfBoundsAFaultsForEveryWord : Prop :=
  (∀ (i : Instr) (s : State), s.dataSize ≤ i.a.toNat →
    ∃ t, exec i s = .next t ∧ RaisedAfterFetch s t (.invalidMemoryAccess s.pc .a i.a)) ∧
  (∀ (s : State) (w : Word), s.status = .running → s.codeRead s.pc = some w →
    s.dataSize ≤ (splitWord w).a.toNat →
    ∃ t, step s = .next t ∧ RaisedAfterFetch s t (.invalidMemoryAccess s.pc .a (splitWord w).a))

/-- 40_fetch_decode_resolve.md section 3 and 60_exceptions.md section 1: a memory-form `b` out of
bounds faults, `a` being in bounds (decision D6), for every instruction and every word. The record is
decisions D5 and D9, the `pc` D4. -/
def Obligations.OutOfBoundsBFaultsForEveryWord : Prop :=
  (∀ (i : Instr) (addr : Field12) (s : State), i.a.toNat < s.dataSize → i.b = .cell addr →
    s.dataSize ≤ addr.toNat →
    ∃ t, exec i s = .next t ∧ RaisedAfterFetch s t (.invalidMemoryAccess s.pc .b addr)) ∧
  (∀ (s : State) (w : Word), s.status = .running → s.codeRead s.pc = some w →
    (splitWord w).a.toNat < s.dataSize → (splitWord w).b[11] = false →
    s.dataSize ≤ (splitWord w).b.toNat →
    ∃ t, step s = .next t ∧ RaisedAfterFetch s t (.invalidMemoryAccess s.pc .b (splitWord w).b))

/-! ### Frames and whole-machine rules -/

/-- 20_memory.md section 4 and 41_arithmetic.md section 1: what every instruction leaves unchanged, on
every path it takes, its faults included. The `pc` after a halt is decision D4 (log 8), that exit
leaves cell `a` too D18 (log 9). -/
def Obligations.InstructionFrame : Prop :=
  ∀ (i : Instr) (s t : State), exec i s = .next t →
    t.pc = s.pc + 1 ∧ t.code = s.code ∧ t.dataSize = s.dataSize ∧
    (∀ addr, addr ≠ i.a.toNat → t.cell addr = s.cell addr) ∧
    (i.opcode = 0x0F#8 → ∀ addr, t.cell addr = s.cell addr) ∧
    (i.opcode = 0x0F#8 → t.status = .exited ∧ t.fault = s.fault ∨
      t.status = .faulted ∧ t.exitCode = s.exitCode) ∧
    (i.opcode ≠ 0x0F#8 → t.exitCode = s.exitCode) ∧
    (i.opcode ≠ 0x0F#8 → t.status = s.status ∧ t.fault = s.fault ∨
      t.status = .faulted ∧ ∀ addr, t.cell addr = s.cell addr)

/-- 20_memory.md R44: a write sets one cell; the only cell a step changes is `a` of a word with an
arithmetic opcode, and then the machine goes on. -/
def Obligations.OnlyArithmeticWritesAndOnlyCellA : Prop :=
  (∀ (s : State) (a : Field12) (v : Byte), a.toNat < s.dataSize →
    (s.memWrite a v).cell a.toNat = some v ∧
    ∀ addr, addr ≠ a.toNat → (s.memWrite a v).cell addr = s.cell addr) ∧
  (∀ (s t : State) (addr : Nat), step s = .next t → t.mem.read addr ≠ s.mem.read addr →
    addr < s.dataSize ∧ t.status = .running ∧ ∃ w, s.codeRead s.pc = some w ∧
      (splitWord w).opcode.toNat ≤ 0x04 ∧ addr = (splitWord w).a.toNat)

/-- 10_state.md section 4 and 60_exceptions.md section 1: which steps exit and which fault, and what
writes `exit_code` and the record. That exit and the undefined opcodes check `a` is decision D7; which
of several failed checks is recorded is decision D6 and not said here. -/
def Obligations.StatusTransitions : Prop :=
  ∀ s t : State, step s = .next t →
    s.status = .running ∧
    (t.status = .exited ↔ ∃ w y, s.codeRead s.pc = some w ∧ (splitWord w).opcode = 0x0F#8 ∧
      (splitWord w).a.toNat < s.dataSize ∧ operandValue s (decodeSrc (splitWord w).b) = some y ∧
      t.exitCode = y) ∧
    (t.status = .faulted ↔ s.codeSize ≤ s.pc ∨ ∃ w, s.codeRead s.pc = some w ∧
      (s.dataSize ≤ (splitWord w).a.toNat ∨
        ((splitWord w).b[11] = false ∧ s.dataSize ≤ (splitWord w).b.toNat) ∨
        (splitWord w).opcode ∉ ([0x00#8, 0x01#8, 0x02#8, 0x03#8, 0x04#8, 0x0F#8] : List Opcode) ∨
        (((splitWord w).opcode = 0x03#8 ∨ (splitWord w).opcode = 0x04#8) ∧
          operandValue s (decodeSrc (splitWord w).b) = some 0#8))) ∧
    (t.status ≠ .exited → t.exitCode = s.exitCode) ∧
    (t.status ≠ .faulted → t.fault = s.fault) ∧
    (t.status = .faulted → ∃ r, t.fault = some r)

/-- 20_memory.md section 1: the cells an instruction can reach, as the spec derives them from the
field widths. That `data_size` may be 4096 and more is decision D12. -/
def Obligations.ReachOfTheOperandFields : Prop :=
  (∀ (w : Word) (i : Instr) (addr : Field12), decode w = .ok i → i.b = .cell addr → addr.toNat < 2048) ∧
  (∀ (s t : State) (addr : Nat), step s = .next t → 4096 ≤ addr → t.cell addr = s.cell addr) ∧
  (∀ (s t : State) (ipc : Nat) (addr : Field12), s.fault = none → 4096 ≤ s.dataSize →
    step s = .next t → t.fault ≠ some (.invalidMemoryAccess ipc .a addr)) ∧
  (∀ (s t : State) (ipc : Nat) (addr : Field12), s.fault = none → 2048 ≤ s.dataSize →
    step s = .next t → t.fault ≠ some (.invalidMemoryAccess ipc .b addr))

/-- 00_scope.md section 4 and 10_state.md section 2: with `code_size` below `2^width` a counter of
`width` bits holds the same `pc` as the natural number the model takes (decision D2, log 1). That
every fetch increments `pc`, that of a halting step included, and InvalidPc leaves it is decision D4
(log 8). -/
def Obligations.PcOfAnyWidthNeverWraps : Prop :=
  ∀ (width : Nat) (s t : State), s.codeSize < 2 ^ width → s.pc ≤ s.codeSize → step s = .next t →
    (BitVec.ofNat width t.pc).toNat = t.pc ∧
    (s.pc < s.codeSize → BitVec.ofNat width t.pc = BitVec.ofNat width s.pc + 1#width) ∧
    (s.codeSize ≤ s.pc → BitVec.ofNat width t.pc = BitVec.ofNat width s.pc)

/-- 20_memory.md section 4: a step depends on memory through cell `a` and, in memory form, cell `b`
alone; two states that agree on them and on all but memory end alike, and agree on cell `a` again. -/
def Obligations.StepDependsOnNamedCellsAlone : Prop :=
  ∀ (s s' : State) (w : Word), s.status = .running → s'.status = .running →
    s'.pc = s.pc → s'.code = s.code → s'.dataSize = s.dataSize → s'.exitCode = s.exitCode →
    s'.fault = s.fault → s.codeRead s.pc = some w →
    s'.cell (splitWord w).a.toNat = s.cell (splitWord w).a.toNat →
    ((splitWord w).b[11] = false →
      s'.cell (splitWord w).b.toNat = s.cell (splitWord w).b.toNat) →
    ∃ t t', step s = .next t ∧ step s' = .next t' ∧ t'.pc = t.pc ∧ t'.status = t.status ∧
      t'.exitCode = t.exitCode ∧ t'.fault = t.fault ∧
      t'.cell (splitWord w).a.toNat = t.cell (splitWord w).a.toNat

/-! ### Reset and the invariant -/

/-- 10_state.md section 8 and 70_reset_and_hazards.md section 1: what reset leaves, by decisions D3 and
D13, from the state after reset and from a halted state; code and data placed after the halt are those
of the new run; a Running state is refused both (logs 12, 13). -/
def Obligations.ResetLeavesStartOfRun : Prop :=
  (State.reset.pc = 0 ∧ State.reset.status = .running ∧ State.reset.exitCode = 0 ∧
    State.reset.fault = none) ∧
  (∀ s : State, s.status ≠ .running →
    assertReset s = .next { s with pc := 0, status := .running, exitCode := 0, fault := none }) ∧
  (∀ (code : List Word) (data : List Byte) (s : State), s.status ≠ .running →
    ∃ t, place code data s = .next t ∧ assertReset t = .next (State.load code data)) ∧
  (∀ (code : List Word) (data : List Byte) (s : State), s.status = .running →
    assertReset s = .refused .resetWhileRunning ∧
    place code data s = .refused .environmentDuringRun)

/-- 70_reset_and_hazards.md R181: reset touches neither memory, and every cell holds at the start of a
run what the environment put there. -/
def Obligations.ResetKeepsWhatEnvironmentPlaced : Prop :=
  (∀ s t : State, assertReset s = .next t → t.code = s.code ∧ t.dataSize = s.dataSize ∧
    ∀ addr, t.cell addr = s.cell addr) ∧
  (∀ (code : List Word) (data : List Byte), (State.load code data).code = code ∧
    (State.load code data).dataSize = data.length ∧
    ∀ addr, (State.load code data).cell addr = data[addr]?)

/-- The invariant of Safety.lean holds at reset, at the start of every run and after every reset. The
values of `State.reset` for code and data and the canonical form of memory are the model's (logs 2, 3,
4); the reset values of `exit_code` and the record are decision D13, that of `pc` D3. -/
def Obligations.InvariantAtReset : Prop :=
  State.reset.Inv ∧ (∀ (code : List Word) (data : List Byte), (State.load code data).Inv) ∧
  (∀ s t : State, s.Inv → assertReset s = .next t → t.Inv)

/-- 10_state.md sections 2 and 4, 60_exceptions.md sections 1 to 3: every step keeps memory in range and
in canonical form (the model's own form of data memory, log 3), `pc` at most `code_size`, and the result registers in agreement with the status: the
exit code is the value of `B` of the exit that halted, and each fault record goes with the check that
failed and those before it that passed (`State.recordOk`). That `exit_code` is 0 while Running and while
Faulted is decision D13, the halted `pc` D4, the order of the checks D6, the check of `a` for exit and
undefined opcodes D7, the records D5 and D9. -/
def Obligations.StepKeepsInvariant : Prop :=
  ∀ s t : State, s.Inv → step s = .next t → t.Inv

/-- The list that holds data memory is canonical: two memories that read alike are equal (the model's
own form of data memory, log 3). -/
def Obligations.MemoriesThatReadAlikeAreEqual : Prop :=
  ∀ m m' : Memory, m.wf → m'.wf → (∀ a, m.read a = m'.read a) → m = m'

/-! ### Ports -/

/-- 49_interfaces.md section 2: the result outputs show the whole result, with the spec's codes for the
status, the fault tags and the fields, and 0 where nothing is valid (decisions D8, D9, D13, D19). The
outputs that show `pc` are natural numbers (log 1). -/
def Obligations.ResultOutputsShowTheResult : Prop :=
  (∀ s s' : State, s.resultOk = true → s'.resultOk = true → statusPort s = statusPort s' →
    exitCodePort s = exitCodePort s' → faultTagPort s = faultTagPort s' →
    faultPcPort s = faultPcPort s' → faultFieldPort s = faultFieldPort s' →
    faultAddrPort s = faultAddrPort s' → faultOpcodePort s = faultOpcodePort s' →
    s.result = s'.result) ∧
  (∀ s : State, pcPort s = s.pc ∧ (s.status = .running → statusPort s = 0) ∧
    (s.status = .exited → statusPort s = 1 ∧ exitCodePort s = s.exitCode) ∧
    (s.status = .faulted → statusPort s = 2)) ∧
  (∀ (s : State) (pc : Nat), s.status = .faulted → s.fault = some (.invalidPc pc) →
    faultTagPort s = 0 ∧ faultPcPort s = pc ∧ faultFieldPort s = 0 ∧ faultAddrPort s = 0 ∧
    faultOpcodePort s = 0) ∧
  (∀ (s : State) (ipc : Nat) (field : FaultField) (addr : Field12), s.status = .faulted →
    s.fault = some (.invalidMemoryAccess ipc field addr) →
    faultTagPort s = 1 ∧ faultPcPort s = ipc ∧ (field = .a → faultFieldPort s = 0) ∧
    (field = .b → faultFieldPort s = 1) ∧ faultAddrPort s = addr ∧ faultOpcodePort s = 0) ∧
  (∀ (s : State) (ipc : Nat) (op : Opcode), s.status = .faulted →
    s.fault = some (.invalidInstruction ipc op) →
    faultTagPort s = 2 ∧ faultPcPort s = ipc ∧ faultFieldPort s = 0 ∧ faultAddrPort s = 0 ∧
    faultOpcodePort s = op) ∧
  (∀ (s : State) (ipc : Nat) (op : Opcode), s.status = .faulted →
    s.fault = some (.divisionByZero ipc op) →
    faultTagPort s = 3 ∧ faultPcPort s = ipc ∧ faultFieldPort s = 0 ∧ faultAddrPort s = 0 ∧
    faultOpcodePort s = op) ∧
  (∀ s : State, s.status ≠ .exited → exitCodePort s = 0) ∧
  (∀ s : State, s.status ≠ .faulted → faultTagPort s = 0 ∧ faultPcPort s = 0 ∧
    faultFieldPort s = 0 ∧ faultAddrPort s = 0 ∧ faultOpcodePort s = 0)

/-- 49_interfaces.md sections 2 and 3: a step's transactions account for it, in order: the code read at
`pc` if the pc check passes, the read of cell `b`, the read of cell `a`, the write of cell `a`. Every
data address is in bounds, reads return the cell's value, the write is exactly the change of memory,
and a step that halts writes nothing. The order is the spec's derivation, the ports decisions D1 and
D19, the check of `a` before every read D6 and D7, that exit leaves cell `a` alone D18; that the reads
R47 calls unobservable (D11) are left out is log 15. -/
def Obligations.TransactionsAccountForTheStep : Prop :=
  ∀ s t : State, step s = .next t → AccountedFor s t (transactions s)
end

