-- ==== Sys2Proof/Laws/Memory.lean ====
section
/-! SUPPORT. What a memory reads after each operation, and that every operation keeps the canonical form. -/

namespace Sys2Proof.Machine

@[simp] theorem Memory.read_nil (a : Nat) : Memory.read [] a = Config.unlistedCell := rfl

theorem Memory.read_erase (m : Memory) (a b : Nat) :
    (m.erase a).read b = if b = a then Config.unlistedCell else m.read b := by
  induction m with
  | nil => simp [Memory.erase]
  | cons p m ih =>
    obtain ⟨k, v⟩ := p
    by_cases hk : k = a
    · subst hk
      by_cases hb : b = k <;> simp_all [Memory.erase, Memory.read, eq_comm]
    · by_cases hb : k = b
      · subst hb; simp [Memory.erase, Memory.read, hk]
      · simp [Memory.erase, Memory.read, hk, hb, ih]

theorem Memory.mem_erase (m : Memory) (a : Nat) (p : Host.Cell) :
    p ∈ m.erase a ↔ p ∈ m ∧ p.1 ≠ a := by
  induction m with
  | nil => simp [Memory.erase]
  | cons q m ih =>
    obtain ⟨k, v⟩ := q
    by_cases hk : k = a
    · simp only [Memory.erase, hk, if_true, ih, List.mem_cons]
      constructor
      · exact fun h => ⟨.inr h.1, h.2⟩
      · rintro ⟨rfl | h, hne⟩
        · exact absurd rfl hne
        · exact ⟨h, hne⟩
    · simp only [Memory.erase, hk, if_false, List.mem_cons, ih]
      constructor
      · rintro (rfl | h)
        · exact ⟨.inl rfl, hk⟩
        · exact ⟨.inr h.1, h.2⟩
      · rintro ⟨rfl | h, hne⟩
        · exact .inl rfl
        · exact .inr ⟨h, hne⟩

theorem Memory.mem_insert (m : Memory) (a : Nat) (v : Byte) (p : Host.Cell) :
    p ∈ m.insert a v ↔ p = (a, v) ∨ p ∈ m := by
  induction m with
  | nil => simp [Memory.insert]
  | cons q m ih =>
    obtain ⟨k, w⟩ := q
    by_cases h : a < k
    · simp [Memory.insert, h]
    · simp [Memory.insert, h, ih, or_left_comm]

theorem Memory.read_insert (m : Memory) (a b : Nat) (v : Byte) (h : ∀ p ∈ m, p.1 ≠ a) :
    (m.insert a v).read b = if b = a then v else m.read b := by
  induction m with
  | nil =>
    by_cases hb : b = a
    · simp [Memory.insert, Memory.read, hb]
    · simp [Memory.insert, Memory.read, hb, Ne.symm hb]
  | cons q m ih =>
    obtain ⟨k, w⟩ := q
    have hk : k ≠ a := h (k, w) (by simp)
    have ih' := ih fun p hp => h p (by simp [hp])
    by_cases hlt : a < k
    · by_cases hb : b = a
      · simp [Memory.insert, Memory.read, hlt, hb]
      · simp [Memory.insert, Memory.read, hlt, hb, Ne.symm hb]
    · by_cases hkb : k = b
      · subst hkb; simp [Memory.insert, Memory.read, hlt, hk]
      · simp [Memory.insert, Memory.read, hlt, hkb, ih']

/-- A read after a write: the value written at that address, what was there before at any other. -/
theorem Memory.read_write (m : Memory) (a b : Nat) (v : Byte) :
    (m.write a v).read b = if b = a then v else m.read b := by
  by_cases hv : v = Config.unlistedCell
  · by_cases hb : b = a <;> simp [Memory.write, hv, Memory.read_erase, hb]
  · simp only [Memory.write, hv, if_false]
    rw [Memory.read_insert _ _ _ _ fun p hp => ((Memory.mem_erase m a p).1 hp).2, Memory.read_erase]
    by_cases hb : b = a <;> simp [hb]

theorem Memory.mem_write {m : Memory} {a : Nat} {v : Byte} {p : Host.Cell}
    (h : p ∈ m.write a v) : p = (a, v) ∨ p ∈ m := by
  by_cases hv : v = Config.unlistedCell
  · simp only [Memory.write, hv, if_true, Memory.mem_erase] at h
    exact .inr h.1
  · simp only [Memory.write, hv, if_false, Memory.mem_insert, Memory.mem_erase] at h
    exact h.imp id And.left

theorem Memory.erase_wf {m : Memory} (h : m.wf) (a : Nat) : (m.erase a).wf := by
  refine ⟨?_, fun p hp => h.2 p ((Memory.mem_erase m a p).1 hp).1⟩
  have hpw := h.1
  clear h
  induction m with
  | nil => exact List.Pairwise.nil
  | cons q m ih =>
    obtain ⟨k, v⟩ := q
    rw [List.pairwise_cons] at hpw
    by_cases hk : k = a
    · simpa [Memory.erase, hk] using ih hpw.2
    · simp only [Memory.erase, hk, if_false, List.pairwise_cons]
      exact ⟨fun p hp => hpw.1 p ((Memory.mem_erase m a p).1 hp).1, ih hpw.2⟩

theorem Memory.insert_pairwise {m : Memory} (h : m.Pairwise fun p q => p.1 < q.1) {a : Nat} {v : Byte}
    (hn : ∀ p ∈ m, p.1 ≠ a) : (m.insert a v).Pairwise fun p q => p.1 < q.1 := by
  induction m with
  | nil => simp [Memory.insert]
  | cons q m ih =>
    obtain ⟨k, w⟩ := q
    have hk : k ≠ a := hn (k, w) (by simp)
    have hm := List.pairwise_cons.1 h
    by_cases hlt : a < k
    · simp only [Memory.insert, hlt, if_true]
      refine List.pairwise_cons.2 ⟨fun p hp => ?_, h⟩
      rcases List.mem_cons.1 hp with rfl | hp
      · exact hlt
      · exact lt_trans hlt (hm.1 p hp)
    · simp only [Memory.insert, hlt, if_false]
      refine List.pairwise_cons.2 ⟨fun p hp => ?_, ih hm.2 fun p hp => hn p (by simp [hp])⟩
      rcases (Memory.mem_insert m a v p).1 hp with rfl | hp
      · exact lt_of_le_of_ne (not_lt.1 hlt) hk
      · exact hm.1 p hp

/-- A write keeps the canonical form. -/
theorem Memory.write_wf {m : Memory} (h : m.wf) (a : Nat) (v : Byte) : (m.write a v).wf := by
  by_cases hv : v = Config.unlistedCell
  · simpa [Memory.write, hv] using Memory.erase_wf h a
  · have he := Memory.erase_wf h a
    simp only [Memory.write, hv, if_false]
    refine ⟨Memory.insert_pairwise he.1 fun p hp => ((Memory.mem_erase m a p).1 hp).2, fun p hp => ?_⟩
    rcases (Memory.mem_insert _ a v p).1 hp with rfl | hp
    · exact hv
    · exact he.2 p hp

theorem Memory.mem_ofBytesFrom {vs : List Byte} {k : Nat} {p : Host.Cell}
    (h : p ∈ Memory.ofBytesFrom k vs) :
    k ≤ p.1 ∧ p.1 < k + vs.length ∧ p.2 ≠ Config.unlistedCell := by
  induction vs generalizing k with
  | nil => simp [Memory.ofBytesFrom] at h
  | cons v vs ih =>
    by_cases hv : v = Config.unlistedCell
    · simp only [Memory.ofBytesFrom, hv, if_true] at h
      have := ih h
      simp only [List.length_cons]
      exact ⟨by omega, by omega, this.2.2⟩
    · simp only [Memory.ofBytesFrom, hv, if_false, List.mem_cons] at h
      rcases h with rfl | h
      · exact ⟨le_refl _, by simp, hv⟩
      · have := ih h
        simp only [List.length_cons]
        exact ⟨by omega, by omega, this.2.2⟩

/-- A loaded memory is in canonical form. -/
theorem Memory.ofBytesFrom_wf (k : Nat) (vs : List Byte) : (Memory.ofBytesFrom k vs).wf := by
  refine ⟨?_, fun p hp => (Memory.mem_ofBytesFrom hp).2.2⟩
  induction vs generalizing k with
  | nil => exact List.Pairwise.nil
  | cons v vs ih =>
    by_cases hv : v = Config.unlistedCell
    · simpa [Memory.ofBytesFrom, hv] using ih (k + 1)
    · simp only [Memory.ofBytesFrom, hv, if_false]
      exact List.pairwise_cons.2 ⟨fun p hp => (Memory.mem_ofBytesFrom hp).1, ih (k + 1)⟩

/-- The memory of `State.reset` is in canonical form. -/
theorem State.reset_mem_wf : State.reset.mem.wf := by decide

end Sys2Proof.Machine
end

