-- ==== Sys2Proof/Laws/State.lean ====
section
/-! SUPPORT. One lemma per field per update of State. -/

namespace Sys2Proof.Machine

@[simp] theorem State.fetched_pc (s : State) : s.fetched.pc = s.pc + 1 := rfl
@[simp] theorem State.fetched_mem (s : State) : s.fetched.mem = s.mem := rfl
@[simp] theorem State.fetched_status (s : State) : s.fetched.status = s.status := rfl
@[simp] theorem State.fetched_exitCode (s : State) : s.fetched.exitCode = s.exitCode := rfl
@[simp] theorem State.fetched_fault (s : State) : s.fetched.fault = s.fault := rfl
@[simp] theorem State.fetched_code (s : State) : s.fetched.code = s.code := rfl
@[simp] theorem State.fetched_dataSize (s : State) : s.fetched.dataSize = s.dataSize := rfl

@[simp] theorem State.raise_pc (s : State) (r : FaultRecord) : (s.raise r).pc = s.pc := rfl
@[simp] theorem State.raise_mem (s : State) (r : FaultRecord) : (s.raise r).mem = s.mem := rfl
@[simp] theorem State.raise_status (s : State) (r : FaultRecord) : (s.raise r).status = .faulted := rfl
@[simp] theorem State.raise_exitCode (s : State) (r : FaultRecord) : (s.raise r).exitCode = s.exitCode := rfl
@[simp] theorem State.raise_fault (s : State) (r : FaultRecord) : (s.raise r).fault = some r := rfl
@[simp] theorem State.raise_code (s : State) (r : FaultRecord) : (s.raise r).code = s.code := rfl
@[simp] theorem State.raise_dataSize (s : State) (r : FaultRecord) : (s.raise r).dataSize = s.dataSize := rfl

@[simp] theorem State.haltExit_pc (s : State) (v : Byte) : (s.haltExit v).pc = s.pc := rfl
@[simp] theorem State.haltExit_mem (s : State) (v : Byte) : (s.haltExit v).mem = s.mem := rfl
@[simp] theorem State.haltExit_status (s : State) (v : Byte) : (s.haltExit v).status = .exited := rfl
@[simp] theorem State.haltExit_exitCode (s : State) (v : Byte) : (s.haltExit v).exitCode = v := rfl
@[simp] theorem State.haltExit_fault (s : State) (v : Byte) : (s.haltExit v).fault = s.fault := rfl
@[simp] theorem State.haltExit_code (s : State) (v : Byte) : (s.haltExit v).code = s.code := rfl
@[simp] theorem State.haltExit_dataSize (s : State) (v : Byte) : (s.haltExit v).dataSize = s.dataSize := rfl

@[simp] theorem State.memWrite_pc (s : State) (a : Field12) (v : Byte) : (s.memWrite a v).pc = s.pc := rfl
@[simp] theorem State.memWrite_mem (s : State) (a : Field12) (v : Byte) :
    (s.memWrite a v).mem = s.mem.write a.toNat v := rfl
@[simp] theorem State.memWrite_status (s : State) (a : Field12) (v : Byte) :
    (s.memWrite a v).status = s.status := rfl
@[simp] theorem State.memWrite_exitCode (s : State) (a : Field12) (v : Byte) :
    (s.memWrite a v).exitCode = s.exitCode := rfl
@[simp] theorem State.memWrite_fault (s : State) (a : Field12) (v : Byte) :
    (s.memWrite a v).fault = s.fault := rfl
@[simp] theorem State.memWrite_code (s : State) (a : Field12) (v : Byte) :
    (s.memWrite a v).code = s.code := rfl
@[simp] theorem State.memWrite_dataSize (s : State) (a : Field12) (v : Byte) :
    (s.memWrite a v).dataSize = s.dataSize := rfl

end Sys2Proof.Machine
end

