-- ==== Sys2Proof/Laws/Ops.lean ====
section
/-! SUPPORT. What each shared operation can do, said once: cells, fetch, the resolver, the stages every
instruction shares, and one step. -/

namespace Sys2Proof.Machine

/-! ### Cells -/

theorem State.cell_eq_some {s : State} {addr : Nat} {x : Byte} :
    s.cell addr = some x ↔ addr < s.dataSize ∧ s.mem.read addr = x := by
  by_cases h : addr < s.dataSize <;> simp [State.cell, h]

theorem State.cell_congr {s t : State} (hm : t.mem = s.mem) (hd : t.dataSize = s.dataSize) (addr : Nat) :
    t.cell addr = s.cell addr := by
  simp [State.cell, hm, hd]

theorem State.cell_memWrite (s : State) (a : Field12) (v : Byte) (addr : Nat) :
    (s.memWrite a v).cell addr = if addr = a.toNat ∧ addr < s.dataSize then some v else s.cell addr := by
  by_cases h : addr = a.toNat <;> by_cases hd : addr < s.dataSize <;>
    simp [State.cell, Memory.read_write, h, hd]
  all_goals simp_all

/-- A write to an existing cell keeps the memory in canonical form and in range. -/
theorem State.memOk_memWrite {s : State} (h : s.memOk) {a : Field12} (ha : a.toNat < s.dataSize)
    (v : Byte) : (s.memWrite a v).memOk := by
  refine ⟨Memory.write_wf h.1 _ _, fun p hp => ?_⟩
  rcases Memory.mem_write hp with rfl | hp
  · exact ha
  · exact h.2 p hp

/-! ### Operands -/

/-- A word resolves to a value exactly when `a` is in bounds and its `b` has that value. -/
theorem State.resolvedValue_eq_some {s : State} {w : Word} {y : Byte} :
    s.resolvedValue w = some y ↔
      (splitWord w).a.toNat < s.dataSize ∧ operandValue s (decodeSrc (splitWord w).b) = some y := by
  by_cases h : (splitWord w).a.toNat < s.dataSize <;> simp [State.resolvedValue, h]

@[simp] theorem State.resolvedValue_fetched (s : State) (w : Word) :
    s.fetched.resolvedValue w = s.resolvedValue w := rfl
@[simp] theorem State.resolvedValue_raise (s : State) (r : FaultRecord) (w : Word) :
    (s.raise r).resolvedValue w = s.resolvedValue w := rfl
@[simp] theorem State.resolvedValue_haltExit (s : State) (v : Byte) (w : Word) :
    (s.haltExit v).resolvedValue w = s.resolvedValue w := rfl

/-! ### Fetch -/

theorem fetch_of_lt {s : State} (h : s.pc < s.codeSize) :
    ∃ w, s.codeRead s.pc = some w ∧ fetch s = .ok w := by
  refine ⟨s.code[s.pc], ?_, ?_⟩ <;> simp [fetch, State.codeRead, List.getElem?_eq_getElem h]

theorem fetch_of_some {s : State} {w : Word} (h : s.codeRead s.pc = some w) : fetch s = .ok w := by
  simp [fetch, h]

theorem fetch_of_ge {s : State} (h : s.codeSize ≤ s.pc) : fetch s = .error (.invalidPc s.pc) := by
  have : s.codeRead s.pc = none := List.getElem?_eq_none h
  simp [fetch, this]

theorem codeRead_lt {s : State} {i : Nat} {w : Word} (h : s.codeRead i = some w) : i < s.codeSize :=
  (List.getElem?_eq_some_iff.1 h).1

/-! ### The resolver and the stages every instruction shares -/

theorem resolve_a_out {a : Field12} {b : Src} {s : State} (h : s.dataSize ≤ a.toNat) :
    resolve a b s = .error (.invalidMemoryAccess s.pc .a a) := by
  have : ¬ a.toNat < s.dataSize := by omega
  simp [resolve, State.inBounds, this]

theorem resolve_imm {a : Field12} {hi : BitVec 3} {v : Byte} {s : State} (h : a.toNat < s.dataSize) :
    resolve a (.imm hi v) s = .ok (.immediate v) := by
  simp [resolve, State.inBounds, h]

theorem resolve_cell {a addr : Field12} {s : State} (h : a.toNat < s.dataSize)
    (hb : addr.toNat < s.dataSize) : resolve a (.cell addr) s = .ok (.memoryRef addr) := by
  simp [resolve, State.inBounds, h, hb]

theorem resolve_b_out {a addr : Field12} {s : State} (h : a.toNat < s.dataSize)
    (hb : s.dataSize ≤ addr.toNat) :
    resolve a (.cell addr) s = .error (.invalidMemoryAccess s.pc .b addr) := by
  have : ¬ addr.toNat < s.dataSize := by omega
  simp [resolve, State.inBounds, h, this]

/-- Everything the stages before the executor can do. -/
theorem withOperand_cases (a : Field12) (b : Src) (s : State) (executor : Byte → State → State) :
    (s.dataSize ≤ a.toNat ∧
      withOperand a b s executor = s.fetched.raise (.invalidMemoryAccess s.pc .a a)) ∨
    (a.toNat < s.dataSize ∧ ∃ addr, b = .cell addr ∧ s.dataSize ≤ addr.toNat ∧
      withOperand a b s executor = s.fetched.raise (.invalidMemoryAccess s.pc .b addr)) ∨
    (a.toNat < s.dataSize ∧ ∃ y, operandValue s b = some y ∧
      withOperand a b s executor = executor y s.fetched) := by
  by_cases ha : s.dataSize ≤ a.toNat
  · exact .inl ⟨ha, by simp [withOperand, resolve_a_out ha]⟩
  · have ha := not_le.1 ha
    cases b with
    | imm hi v =>
      exact .inr (.inr ⟨ha, v, rfl, by simp [withOperand, resolve_imm ha, Operand.value]⟩)
    | cell addr =>
      by_cases hb : s.dataSize ≤ addr.toNat
      · exact .inr (.inl ⟨ha, addr, rfl, hb, by simp [withOperand, resolve_b_out ha hb]⟩)
      · have hb := not_le.1 hb
        refine .inr (.inr ⟨ha, s.memRead addr, State.cell_eq_some.2 ⟨hb, rfl⟩, ?_⟩)
        simp [withOperand, resolve_cell ha hb, Operand.value]

/-- With both operands in bounds the executor runs, on the operand's value. -/
theorem withOperand_value {a : Field12} {b : Src} {s : State} {y : Byte} (executor : Byte → State → State)
    (ha : a.toNat < s.dataSize) (hy : operandValue s b = some y) :
    withOperand a b s executor = executor y s.fetched := by
  rcases withOperand_cases a b s executor with ⟨h, -⟩ | ⟨-, addr, rfl, h, -⟩ | ⟨-, y', hy', h⟩
  · omega
  · have := (State.cell_eq_some.1 hy).1
    omega
  · rw [h, Option.some.inj (hy.symm.trans hy')]

/-- The read-modify-write of an existing cell, seen cell by cell. -/
theorem stored_update {s : State} {a : Field12} {x : Byte} (hx : s.cell a.toNat = some x)
    (f : Byte → Byte) : Stored s (s.fetched.update a f) a (f x) := by
  have hx := State.cell_eq_some.1 hx
  refine ⟨rfl, rfl, rfl, rfl, rfl, rfl, ?_, fun addr h => ?_⟩
  · simp [State.update, State.cell_memWrite, State.memRead, hx]
  · simp [State.update, State.cell_memWrite, h]
    exact State.cell_congr rfl rfl addr

theorem raisedAfterFetch_raise (s : State) (r : FaultRecord) :
    RaisedAfterFetch s (s.fetched.raise r) r :=
  ⟨rfl, rfl, rfl, rfl, rfl, rfl, fun addr => State.cell_congr rfl rfl addr⟩

/-! ### One step -/

theorem step_of_halted {s : State} (h : s.status ≠ .running) : step s = .fault .halted := by
  cases hs : s.status with
  | running => exact absurd hs h
  | exited => simp [step, hs]
  | faulted => simp [step, hs]

theorem running_of_step_next {s t : State} (h : step s = .next t) : s.status = .running := by
  by_contra hs
  simp [step_of_halted hs] at h

end Sys2Proof.Machine
end

