-- ==== Sys2Proof/Laws/PerInstr.lean ====
section
/-! SUPPORT. Statements about every instruction as syntax, one lemma per constructor. -/

namespace Sys2Proof.Laws.OpcodeByte

/-- The top byte of an instruction's word is its opcode, one of the six defined (R61, R66). -/
def Statement (i : Instr) : Prop :=
  (splitWord (encode i)).opcode = i.opcode ∧ definedOpcode i.opcode = true

theorem splitWord_encode_opcode (i : Instr) : (splitWord (encode i)).opcode = i.opcode := by
  simp only [splitWord, encode, joinFields, fieldsOf]
  ext k hk
  have h1 : 24 + k < 32 := by omega
  have ha : i.a.getLsbD (24 + k - 12) = false := BitVec.getLsbD_of_ge _ _ (by omega)
  have hb : (encodeSrc i.b).getLsbD (24 + k) = false := BitVec.getLsbD_of_ge _ _ (by omega)
  simp [BitVec.getElem_extractLsb', h1, hk, ha, hb]

theorem add (a : Field12) (b : Src) : Statement (.add a b) := ⟨splitWord_encode_opcode _, rfl⟩
theorem sub (a : Field12) (b : Src) : Statement (.sub a b) := ⟨splitWord_encode_opcode _, rfl⟩
theorem mul (a : Field12) (b : Src) : Statement (.mul a b) := ⟨splitWord_encode_opcode _, rfl⟩
theorem div (a : Field12) (b : Src) : Statement (.div a b) := ⟨splitWord_encode_opcode _, rfl⟩
theorem mod (a : Field12) (b : Src) : Statement (.mod a b) := ⟨splitWord_encode_opcode _, rfl⟩
theorem exit (a : Field12) (b : Src) : Statement (.exit a b) := ⟨splitWord_encode_opcode _, rfl⟩

end Sys2Proof.Laws.OpcodeByte
end

