-- ==== Sys2Proof/Laws/Step.lean ====
section
/-! SUPPORT. What one instruction and one step can do, said once for all opcodes: the step of a Running
state is the resolver followed by one of four executor effects. -/

namespace Sys2Proof.Machine

/-! ### Decoding, word by word -/

/-- A word is an instruction with its own fields, or an undefined opcode. -/
theorem decode_cases (w : Word) :
    (∃ i, decode w = .ok i ∧ i.opcode = (splitWord w).opcode ∧ i.a = (splitWord w).a ∧
      i.b = decodeSrc (splitWord w).b) ∨
    (definedOpcode (splitWord w).opcode = false ∧
      decode w = .error (.undefinedOpcode (splitWord w))) := by
  simp only [decode, decodeFields]
  split_ifs with h0 h1 h2 h3 h4 h5
  case neg => exact .inr ⟨by simp [definedOpcode, h0, h1, h2, h3, h4, h5], rfl⟩
  all_goals exact .inl ⟨_, rfl, by simp [Instr.opcode, *], rfl, rfl⟩

theorem definedOpcode_opcode (i : Instr) : definedOpcode i.opcode = true := by
  cases i <;> rfl

/-! ### One executor for every opcode -/

/-- The executor's effect on the fetched state, by opcode (R90, the ALU lines). -/
def executor (op : Opcode) (a : Field12) (ipc : Nat) (y : Byte) (t : State) : State :=
  if op = 0x00#8 then t.update a (aluAdd · y)
  else if op = 0x01#8 then t.update a (aluSub · y)
  else if op = 0x02#8 then t.update a (aluMul · y)
  else if op = 0x03#8 then
    if y = 0#8 then t.raise (.divisionByZero ipc 0x03#8) else t.update a (aluDiv · y)
  else if op = 0x04#8 then
    if y = 0#8 then t.raise (.divisionByZero ipc 0x04#8) else t.update a (aluMod · y)
  else if op = 0x0F#8 then t.haltExit y
  else t.raise (.invalidInstruction ipc op)

/-- Everything the executor can do. -/
theorem executor_cases (op : Opcode) (a : Field12) (ipc : Nat) (y : Byte) (t : State) :
    (op.toNat ≤ 4 ∧ ¬((op = 0x03#8 ∨ op = 0x04#8) ∧ y = 0#8) ∧
      ∃ f, executor op a ipc y t = t.update a f) ∨
    ((op = 0x03#8 ∨ op = 0x04#8) ∧ y = 0#8 ∧ executor op a ipc y t = t.raise (.divisionByZero ipc op)) ∨
    (op = 0x0F#8 ∧ executor op a ipc y t = t.haltExit y) ∨
    (definedOpcode op = false ∧ executor op a ipc y t = t.raise (.invalidInstruction ipc op)) := by
  simp only [executor]
  split_ifs with h0 h1 h2 h3 hy h4 hy h5
  · exact .inl ⟨by simp [h0], by simp [h0], _, rfl⟩
  · exact .inl ⟨by simp [h1], by simp [h1], _, rfl⟩
  · exact .inl ⟨by simp [h2], by simp [h2], _, rfl⟩
  · exact .inr (.inl ⟨.inl h3, hy, by rw [h3]⟩)
  · exact .inl ⟨by simp [h3], by simp [hy], _, rfl⟩
  · exact .inr (.inl ⟨.inr h4, hy, by rw [h4]⟩)
  · exact .inl ⟨by simp [h4], by simp [hy], _, rfl⟩
  · exact .inr (.inr (.inl ⟨h5, rfl⟩))
  · exact .inr (.inr (.inr ⟨by simp [definedOpcode, h0, h1, h2, h3, h4, h5], rfl⟩))

/-- Every instruction is the shared stages and the executor. -/
theorem exec_eq (i : Instr) (s : State) :
    exec i s = .next (withOperand i.a i.b s (executor i.opcode i.a s.pc)) := by
  cases i <;> rfl

theorem executor_undefined {op : Opcode} (h : definedOpcode op = false) (a : Field12) (ipc : Nat) :
    executor op a ipc = fun _ t => t.raise (.invalidInstruction ipc op) := by
  funext y t
  simp only [definedOpcode, List.mem_cons, List.not_mem_nil, or_false, decide_eq_false_iff_not,
    not_or] at h
  simp only [executor, h.1, h.2.1, h.2.2.1, h.2.2.2.1, h.2.2.2.2.1, h.2.2.2.2.2, if_false]

/-- The step of a Running state that fetches a word, whatever the word is. -/
theorem step_fetched {s : State} {w : Word} (hs : s.status = .running)
    (hw : s.codeRead s.pc = some w) :
    step s = .next (withOperand (splitWord w).a (decodeSrc (splitWord w).b) s
      (executor (splitWord w).opcode (splitWord w).a s.pc)) := by
  rcases decode_cases w with ⟨i, hi, ho, ha, hb⟩ | ⟨ho, hd⟩
  · simp only [step, hs, fetch_of_some hw, hi, exec_eq, ho, ha, hb]
  · simp only [step, hs, fetch_of_some hw, hd, execUndefined, executor_undefined ho]

/-- The step of a Running state past the end of the code. -/
theorem step_past_end {s : State} (hs : s.status = .running) (h : s.codeSize ≤ s.pc) :
    step s = .next (s.raise (.invalidPc s.pc)) := by
  simp only [step, hs, fetch_of_ge h]

/-- Everything a step that answers a next state can have done. -/
theorem step_cases {s t : State} (h : step s = .next t) :
    s.status = .running ∧
    ((s.codeSize ≤ s.pc ∧ t = s.raise (.invalidPc s.pc)) ∨
      ∃ w, s.codeRead s.pc = some w ∧
        t = withOperand (splitWord w).a (decodeSrc (splitWord w).b) s
          (executor (splitWord w).opcode (splitWord w).a s.pc)) := by
  have hs := running_of_step_next h
  refine ⟨hs, ?_⟩
  by_cases hp : s.codeSize ≤ s.pc
  · rw [step_past_end hs hp] at h
    exact .inl ⟨hp, (Host.Outcome.next.inj h).symm⟩
  · obtain ⟨w, hw, -⟩ := fetch_of_lt (not_le.1 hp)
    rw [step_fetched hs hw] at h
    exact .inr ⟨w, hw, (Host.Outcome.next.inj h).symm⟩

/-! ### Several steps -/

theorem run_next (M : Host.Core) {s t : M.State} (h : M.step s = .next t) (k : Nat) :
    M.run (k + 1) s = M.run k t := by
  rw [Host.Core.run, h]

theorem run_fault (M : Host.Core) {s : M.State} {r : M.Fault} (h : M.step s = .fault r) (k : Nat) :
    M.run (k + 1) s = .fault r := by
  rw [Host.Core.run, h]

theorem core_run_next {s t : State} (h : step s = .next t) (k : Nat) :
    Host.Core.run Sys2Proof.core (k + 1) s = Host.Core.run Sys2Proof.core k t :=
  run_next Sys2Proof.core h k

theorem core_run_fault {s : State} {r : Fault} (h : step s = .fault r) (k : Nat) :
    Host.Core.run Sys2Proof.core (k + 1) s = .fault r :=
  run_fault Sys2Proof.core h k

end Sys2Proof.Machine
end

