-- ==== Sys2Proof/Tests/Slice0.lean ====
section
/-! SUPPORT. Small tests, with expected results from spec/95_test_vectors.md, and one named witness for
the hypotheses of each statement. -/

namespace Sys2Proof.Tests

open Sys2Proof.Machine

/-! ### Well-formedness: a memory-form `b` with bit 11 set is refused, in every instruction (R64) -/

theorem test_wellFormed_refuses_flagged_cell :
    (Instr.add 0 (.cell 0x800)).wellFormed = false ∧ (Instr.sub 0 (.cell 0x800)).wellFormed = false ∧
    (Instr.mul 0 (.cell 0x800)).wellFormed = false ∧ (Instr.div 0 (.cell 0x800)).wellFormed = false ∧
    (Instr.mod 0 (.cell 0x800)).wellFormed = false ∧ (Instr.exit 0 (.cell 0x800)).wellFormed = false := by
  decide

theorem test_wellFormed_accepts_highest_cell : (Instr.add 0xFFF (.cell 0x7FF)).wellFormed = true := by
  decide

/-! ### Decoding: words written out bit by bit, opcode, a, b (R61, R66) -/

/-- `add [0], #5` is opcode 00000000, a 000000000000, b 100000000101 (X2). -/
theorem test_decode_add : decode 0b00000000000000000000100000000101 = .ok (.add 0 (.imm 0 5)) := by rfl
/-- `sub [2], #5` (R102). -/
theorem test_decode_sub : decode 0b00000001000000000010100000000101 = .ok (.sub 2 (.imm 0 5)) := by rfl
/-- `mul [1], #3` (R103). -/
theorem test_decode_mul : decode 0b00000010000000000001100000000011 = .ok (.mul 1 (.imm 0 3)) := by rfl
/-- `div [1]` with `b = 0x900`: immediate 0, bit 8 ignored (V-DEC). -/
theorem test_decode_div : decode 0b00000011000000000001100100000000 = .ok (.div 1 (.imm 1 0)) := by rfl
/-- `mod [4095], [2047]` (V-DEC). -/
theorem test_decode_mod : decode 0b00000100111111111111011111111111 = .ok (.mod 4095 (.cell 2047)) := by rfl
/-- `exit [0], #7` (V-EXIT). -/
theorem test_decode_exit : decode 0b00001111000000000000100000000111 = .ok (.exit 0 (.imm 0 7)) := by rfl
/-- The neighbours of the defined opcodes are rejected (V-FAULT). -/
theorem test_decode_undefined :
    decode 0x05000801 = .error (.undefinedOpcode { opcode := 0x05, a := 0, b := 0x801 }) ∧
    decode 0x0E000000 = .error (.undefinedOpcode { opcode := 0x0E, a := 0, b := 0 }) ∧
    decode 0x10000000 = .error (.undefinedOpcode { opcode := 0x10, a := 0, b := 0 }) ∧
    decode 0xFFFFFFFF = .error (.undefinedOpcode { opcode := 0xFF, a := 0xFFF, b := 0xFFF }) :=
  ⟨rfl, rfl, rfl, rfl⟩
/-- The opcode table's exit row with operand bits 0, and an undefined word. -/
theorem test_decodeTableWord :
    decodeTableWord 32 0x0F000000 = some (.exit 0 (.cell 0)) ∧ decodeTableWord 32 0x07000000 = none := by
  decide

/-! ### One step -/

/-- Cell 0, status, exit code, fault record and pc after one step from the start of a run. -/
def after (w : Word) (data : List Byte) :
    Option (Option Byte × Status × Byte × Option FaultRecord × Nat) :=
  (nextState (step (State.load [w] data))).map fun t => (t.cell 0, t.status, t.exitCode, t.fault, t.pc)

/-- V-ARITH: 255 + 1 wraps to 0. -/
theorem test_add_wraps : after 0x00000001 [255, 1] = some (some 0, .running, 0, none, 1) := by decide
/-- V-FAULT: an immediate is not bounds-checked, 3 + 255 = 258. -/
theorem test_add_immediate : after 0x000008FF [3] = some (some 2, .running, 0, none, 1) := by decide
/-- V-ARITH: 3 - 5 = 254. -/
theorem test_sub_wraps : after 0x01000001 [3, 5] = some (some 254, .running, 0, none, 1) := by decide
/-- V-ARITH: 200 * 3 = 600 = 88 modulo 256. -/
theorem test_mul_wraps : after 0x02000001 [200, 3] = some (some 88, .running, 0, none, 1) := by decide
/-- V-ARITH: 200 / 7 = 28. -/
theorem test_div_truncates : after 0x03000001 [200, 7] = some (some 28, .running, 0, none, 1) := by decide
/-- V-FAULT: payload 0x100 truncates to the divisor 0. -/
theorem test_div_by_truncated_zero :
    after 0x03000900 [9] = some (some 9, .faulted, 0, some (.divisionByZero 0 0x03), 1) := by decide
/-- V-ARITH: 200 mod 7 = 4. -/
theorem test_mod_remainder : after 0x04000001 [200, 7] = some (some 4, .running, 0, none, 1) := by decide
/-- V-FAULT: mod by a zero cell. -/
theorem test_mod_by_zero_cell :
    after 0x04000001 [9, 0] = some (some 9, .faulted, 0, some (.divisionByZero 0 0x04), 1) := by decide
/-- V-EXIT: a non-canonical immediate 0xF07 exits with 7. -/
theorem test_exit_immediate : after 0x0F000F07 [9] = some (some 9, .exited, 7, none, 1) := by decide
/-- V-EXIT: exit checks `a` and does not exit. -/
theorem test_exit_a_out_of_bounds :
    after 0x0F001807 [9] = some (some 9, .faulted, 0, some (.invalidMemoryAccess 0 .a 1), 1) := by decide
/-- V-FAULT: an undefined opcode. -/
theorem test_undefined_opcode :
    after 0x07000000 [3] = some (some 3, .faulted, 0, some (.invalidInstruction 0 0x07), 1) := by decide
/-- V-FAULT: the bounds check of `b` comes before the opcode. -/
theorem test_undefined_opcode_b_out_of_bounds :
    after 0x07000001 [3] = some (some 3, .faulted, 0, some (.invalidMemoryAccess 0 .b 1), 1) := by decide
/-- P8: the empty program. -/
theorem test_empty_program :
    (nextState (step (State.load [] [1, 2, 3]))).map (fun t => (t.fault, t.pc, t.cell 1)) =
      some (some (.invalidPc 0), 0, some 2) := by decide
/-- A step from reset with a word placed runs that word: `exit [0], #7`. -/
theorem test_withFetchWord :
    (nextState (step (State.reset.withFetchWord 32 0x0F000807))).map (fun t => (t.status, t.exitCode)) =
      some (.exited, 7) := by decide
/-- R139: the transactions of `add [0], [1]` over [3, 5], in order. -/
theorem test_transactions_add :
    transactions (State.load [0x00000001] [3, 5]) =
      [.codeRead 0 0x00000001, .dataRead 1 5, .dataRead 0 3, .dataWrite 0 8] := by decide

/-! ### Witnesses: for each statement, states and operands that meet its hypotheses together -/

/-- A halted state of the model: after `exit [0], #7` over [9]. -/
def halted : State :=
  { State.load [0x0F000807] [9] with pc := 1, status := .exited, exitCode := 7 }

/-- Two cells, 9 and 0. -/
def nineZero : State := State.load [0x00000805] [9, 0]

theorem witness_DecodeEncodeAgree :
    (Instr.exit 4095 (.cell 2047)).wellFormed = true ∧ (Instr.add 0 (.imm 7 255)).wellFormed = true ∧
    decode 0x04FFF7FF = .ok (.mod 4095 (.cell 2047)) := ⟨by decide, by decide, rfl⟩

theorem witness_IgnoredImmediateBitsChangeNothing :
    (0x905 : Field12)[11] = true ∧ (0x805 : Field12)[11] = true ∧
    BitVec.extractLsb' 0 8 (0x905 : Field12) = BitVec.extractLsb' 0 8 (0x805 : Field12) ∧
    decodeFields { opcode := 0x03, a := 0, b := 0x905 } = .ok (.div 0 (.imm 1 5)) ∧
    decodeFields { opcode := 0x03, a := 0, b := 0x805 } = .ok (.div 0 (.imm 0 5)) :=
  ⟨rfl, rfl, rfl, rfl, rfl⟩

theorem witness_ImmediateIsLowByteInEveryState :
    (0x800 : Field12)[11] = true ∧ (0 : Field12).toNat < (State.load [] [9]).dataSize := by decide

theorem witness_MemoryFormReadsItsCell_in_bounds :
    (0x7FF : Field12)[11] = false ∧ (0xFFF : Field12).toNat < State.reset.dataSize ∧
    (0x7FF : Field12).toNat < State.reset.dataSize := by decide

/-- The highest cell in bounds, `b = data_size - 1`. -/
theorem witness_MemoryFormReadsItsCell_last_cell :
    (1 : Field12)[11] = false ∧ (0 : Field12).toNat < nineZero.dataSize ∧
    (1 : Field12).toNat < nineZero.dataSize ∧ (1 : Field12).toNat = nineZero.dataSize - 1 := by decide

theorem witness_MemoryFormReadsItsCell_out_of_bounds :
    (1 : Field12)[11] = false ∧ (0 : Field12).toNat < (State.load [] [9]).dataSize ∧
    (State.load [] [9]).dataSize ≤ (1 : Field12).toNat := by decide

theorem witness_StepRunsDecodedInstruction :
    nineZero.status = .running ∧ nineZero.codeRead nineZero.pc = some 0x00000805 ∧
    decode 0x00000805 = .ok (.add 0 (.imm 0 5)) ∧ (Instr.add 0 (.imm 0 5)).wellFormed = true :=
  ⟨rfl, rfl, rfl, rfl⟩

theorem witness_PcCheckBeforeEveryFetch :
    (State.reset.status = .running ∧ State.reset.codeSize ≤ State.reset.pc) ∧
    (nineZero.status = .running ∧ nineZero.pc < nineZero.codeSize) := by decide

theorem witness_StepsExactlyWhileRunning :
    State.reset.status = .running ∧ halted.status ≠ .running := by decide

theorem witness_CodeRunsStraightLine :
    (∃ t, step nineZero = .next t ∧ t.status = .running) ∧
    (∃ t, step (State.load [0x0F000807] [9]) = .next t ∧ t.status = .exited) ∧
    (∃ t, step State.reset = .next t ∧ t.status = .faulted) ∧
    (∃ t, Host.Core.run Sys2Proof.core 1 nineZero = .next t ∧ t.status = .running) :=
  ⟨⟨_, rfl, rfl⟩, ⟨_, rfl, rfl⟩, ⟨_, rfl, rfl⟩, ⟨_, rfl, rfl⟩⟩

/-- One state per branch of the chain of checks, the last one where none fails. -/
theorem witness_FirstFailedCheckIsRecorded :
    (∃ t, step (State.load [] [9]) = .next t ∧ t.fault = some (.invalidPc 0)) ∧
    (∃ t, step (State.load [0x01005006] [3]) = .next t ∧ t.fault = some (.invalidMemoryAccess 0 .a 5)) ∧
    (∃ t, step (State.load [0x00000001] [3]) = .next t ∧ t.fault = some (.invalidMemoryAccess 0 .b 1)) ∧
    (∃ t, step (State.load [0x05000801] [3]) = .next t ∧ t.fault = some (.invalidInstruction 0 0x05)) ∧
    (∃ t, step (State.load [0x03000800] [9]) = .next t ∧ t.fault = some (.divisionByZero 0 0x03)) ∧
    (∃ t, step (State.load [0x03000801] [9]) = .next t ∧ t.fault = none) :=
  ⟨⟨_, rfl, rfl⟩, ⟨_, rfl, rfl⟩, ⟨_, rfl, rfl⟩, ⟨_, rfl, rfl⟩, ⟨_, rfl, rfl⟩, ⟨_, rfl, rfl⟩⟩

theorem witness_StepRefinesPseudocode : State.reset.status = .running ∧ nineZero.status = .running := by
  decide

theorem witness_EveryRunEnds : State.reset.status = .running ∧ nineZero.status = .running := by decide

/-- For add, sub and mul: an immediate, another cell, and the same cell as `B`. -/
theorem witness_AddSubMul :
    nineZero.cell (0 : Field12).toNat = some 9 ∧ operandValue nineZero (.imm 0 255) = some 255 ∧
    operandValue nineZero (.cell 1) = some 0 ∧ operandValue nineZero (.cell 0) = some 9 := by decide

/-- For div and mod: a divisor that is not 0 and one that is, in both forms. -/
theorem witness_DivMod :
    nineZero.cell (0 : Field12).toNat = some 9 ∧
    operandValue nineZero (.imm 7 1) = some 1 ∧ (1 : Byte) ≠ 0#8 ∧
    operandValue nineZero (.imm 7 0) = some 0#8 ∧ operandValue nineZero (.cell 1) = some 0#8 := by decide

theorem witness_SameCellTwiceReadsOldValue :
    (nineZero.cell (0 : Field12).toNat = some 9 ∧ (9 : Byte) ≠ 0#8) ∧
    nineZero.cell (1 : Field12).toNat = some 0#8 := by decide

theorem witness_QuotientAndRemainderRecompose :
    nineZero.cell (1 : Field12).toNat = some 0 ∧ operandValue nineZero (.cell 0) = some 9 ∧
    (9 : Byte) ≠ 0#8 := by decide

theorem witness_NoOpAndClearIdentities :
    nineZero.mem.wf ∧ (1 : Field12).toNat < nineZero.dataSize := by decide

theorem witness_ExitHaltsWithOperandValue :
    (1 : Field12).toNat < nineZero.dataSize ∧ operandValue nineZero (.cell 0) = some 9 ∧
    operandValue nineZero (.imm 0 0) = some 0 := by decide

theorem witness_UndefinedOpcodeFaults :
    (State.load [0x10000000] [3]).status = .running ∧
    (State.load [0x10000000] [3]).codeRead 0 = some 0x10000000 ∧
    (splitWord 0x10000000).opcode ∉ ([0x00#8, 0x01#8, 0x02#8, 0x03#8, 0x04#8, 0x0F#8] : List Opcode) ∧
    (splitWord 0x10000000).a.toNat < (State.load [0x10000000] [3]).dataSize ∧
    operandValue (State.load [0x10000000] [3]) (decodeSrc (splitWord 0x10000000).b) = some 3 := by decide

theorem witness_OutOfBoundsAFaultsForEveryWord :
    nineZero.dataSize ≤ (Instr.exit 2 (.imm 0 0)).a.toNat ∧
    (State.load [0x07001000] [3]).status = .running ∧
    (State.load [0x07001000] [3]).codeRead 0 = some 0x07001000 ∧
    (State.load [0x07001000] [3]).dataSize ≤ (splitWord 0x07001000).a.toNat := by decide

theorem witness_OutOfBoundsBFaultsForEveryWord :
    ((Instr.exit 1 (.cell 2)).a.toNat < nineZero.dataSize ∧ (Instr.exit 1 (.cell 2)).b = .cell 2 ∧
      nineZero.dataSize ≤ (2 : Field12).toNat) ∧
    (State.load [0x07000001] [3]).status = .running ∧
    (State.load [0x07000001] [3]).codeRead 0 = some 0x07000001 ∧
    (splitWord 0x07000001).a.toNat < (State.load [0x07000001] [3]).dataSize ∧
    (splitWord 0x07000001).b[11] = false ∧
    (State.load [0x07000001] [3]).dataSize ≤ (splitWord 0x07000001).b.toNat := by decide

theorem witness_InstructionFrame :
    (∃ t, exec (.add 0 (.cell 1)) nineZero = .next t ∧ t.status = .running) ∧
    (∃ t, exec (.div 0 (.cell 1)) nineZero = .next t ∧ t.status = .faulted) ∧
    (∃ t, exec (.exit 0 (.cell 1)) nineZero = .next t ∧ t.status = .exited) ∧
    (∃ t, exec (.exit 2 (.cell 1)) nineZero = .next t ∧ t.status = .faulted) :=
  ⟨⟨_, rfl, rfl⟩, ⟨_, rfl, rfl⟩, ⟨_, rfl, rfl⟩, ⟨_, rfl, rfl⟩⟩

theorem witness_OnlyArithmeticWritesAndOnlyCellA :
    (1 : Field12).toNat < nineZero.dataSize ∧
    ∃ t, step nineZero = .next t ∧ t.mem.read 0 ≠ nineZero.mem.read 0 :=
  ⟨by decide, _, rfl, by decide⟩

/-- A step that exits, one that goes on, and one that faults for each of the five conditions. -/
theorem witness_StatusTransitions :
    (∃ t, step (State.load [0x0F000807] [9]) = .next t ∧ t.status = .exited) ∧
    (∃ t, step nineZero = .next t ∧ t.status = .running) ∧
    (∃ t, step State.reset = .next t ∧ t.status = .faulted) ∧
    (∃ t, step (State.load [0x0F001807] [9]) = .next t ∧ t.status = .faulted) ∧
    (∃ t, step (State.load [0x00000001] [3]) = .next t ∧ t.status = .faulted) ∧
    (∃ t, step (State.load [0x05000801] [3]) = .next t ∧ t.status = .faulted) ∧
    (∃ t, step (State.load [0x04000900] [9]) = .next t ∧ t.status = .faulted) :=
  ⟨⟨_, rfl, rfl⟩, ⟨_, rfl, rfl⟩, ⟨_, rfl, rfl⟩, ⟨_, rfl, rfl⟩, ⟨_, rfl, rfl⟩, ⟨_, rfl, rfl⟩, ⟨_, rfl, rfl⟩⟩

theorem witness_ReachOfTheOperandFields :
    (decode 0x04FFF7FF = .ok (.mod 4095 (.cell 2047)) ∧ (Instr.mod 4095 (.cell 2047)).b = .cell 2047) ∧
    (State.reset.fault = none ∧ 4096 ≤ State.reset.dataSize ∧ ∃ t, step State.reset = .next t) :=
  ⟨⟨rfl, rfl⟩, rfl, by decide, _, rfl⟩

/-- A counter of one bit: code size 1, at pc 0 and at pc 1. -/
theorem witness_PcOfAnyWidthNeverWraps :
    (nineZero.codeSize < 2 ^ 1 ∧ nineZero.pc < nineZero.codeSize ∧ ∃ t, step nineZero = .next t) ∧
    (nineZero.fetched.codeSize ≤ nineZero.fetched.pc ∧ nineZero.fetched.pc ≤ nineZero.fetched.codeSize ∧
      ∃ t, step nineZero.fetched = .next t) :=
  ⟨⟨by decide, by decide, _, rfl⟩, by decide, by decide, _, rfl⟩

/-- An immediate form over states that differ in cell 1, and a memory form over states that differ in cell 2. -/
theorem witness_StepDependsOnNamedCellsAlone :
    ((State.load [0x00000805] [3, 9]).cell 0 = (State.load [0x00000805] [3, 7]).cell 0 ∧
      (splitWord 0x00000805).b[11] = true ∧
      (State.load [0x00000805] [3, 9]).mem ≠ (State.load [0x00000805] [3, 7]).mem) ∧
    ((State.load [0x00000001] [3, 9, 1]).cell 0 = (State.load [0x00000001] [3, 9, 2]).cell 0 ∧
      (State.load [0x00000001] [3, 9, 1]).cell 1 = (State.load [0x00000001] [3, 9, 2]).cell 1 ∧
      (splitWord 0x00000001).b[11] = false) := by decide

theorem witness_ResetLeavesStartOfRun : halted.status ≠ .running ∧ nineZero.status = .running := by decide

theorem witness_ResetKeepsWhatEnvironmentPlaced : ∃ t, assertReset halted = .next t := ⟨_, rfl⟩

theorem witness_InvariantAtReset : halted.Inv ∧ ∃ t, assertReset halted = .next t :=
  ⟨by decide, _, rfl⟩

/-- Steps that go on, exit and fault, from states that meet the invariant. -/
theorem witness_StepKeepsInvariant :
    (nineZero.Inv ∧ ∃ t, step nineZero = .next t) ∧ (State.reset.Inv ∧ ∃ t, step State.reset = .next t) ∧
    ((State.load [0x0F000807] [9]).Inv ∧ ∃ t, step (State.load [0x0F000807] [9]) = .next t) ∧
    ((State.load [0x03000001] [9, 0]).Inv ∧ ∃ t, step (State.load [0x03000001] [9, 0]) = .next t) :=
  ⟨⟨by decide, _, rfl⟩, ⟨by decide, _, rfl⟩, ⟨by decide, _, rfl⟩, by decide, _, rfl⟩

/-- The invariant refuses a DivisionByZero record where `B` is not 0, an InvalidInstruction record
where `a` is out of bounds, and an exit code that is not the value of `B` (R153, R154, R27). -/
theorem test_invariant_refuses_wrong_results :
    ((State.load [0x03000805] [9]).fetched.raise (.divisionByZero 0 0x03)).resultOk = false ∧
    ((State.load [0x07001800] [9]).fetched.raise (.invalidInstruction 0 0x07)).resultOk = false ∧
    ((State.load [0x0F000807] [9]).fetched.haltExit 8).resultOk = false ∧
    ((State.load [0x03000800] [9]).fetched.raise (.divisionByZero 0 0x03)).resultOk = true := by decide

theorem witness_MemoriesThatReadAlikeAreEqual :
    Memory.wf [(0, 9), (4, 1)] ∧ Memory.wf ((Memory.write [(4, 1)] 0 9).write 2 0) ∧
    (Memory.write [(4, 1)] 0 9).write 2 0 = [(0, 9), (4, 1)] := by decide

theorem witness_ResultOutputsShowTheResult :
    (halted.resultOk = true ∧ statusPort halted = 1 ∧ halted.status ≠ .faulted) ∧
    (nineZero.resultOk = true ∧ nineZero.status ≠ .exited) ∧
    (nineZero.fetched.raise (.invalidPc 1)).resultOk = true ∧
    (nineZero.raise (.invalidMemoryAccess 0 .b 2)).status = .faulted ∧
    (nineZero.raise (.invalidMemoryAccess 0 .b 2)).fault = some (.invalidMemoryAccess 0 .b 2) ∧
    (nineZero.raise (.invalidInstruction 0 5)).fault = some (.invalidInstruction 0 5) ∧
    (nineZero.raise (.divisionByZero 0 3)).fault = some (.divisionByZero 0 3) := by decide

/-- R137: the outputs after `add [0], [1]` over one cell, InvalidMemoryAccess on field b, address 1. -/
theorem test_fault_outputs :
    (nextState (step (State.load [0x00000001] [3]))).map (fun t =>
      (statusPort t, faultTagPort t, faultFieldPort t, faultAddrPort t, faultOpcodePort t)) =
      some (2, 1, 1, 1, 0) := by decide

/-- Steps that write, fail the pc check, and halt after the read of cell `b` alone. -/
theorem witness_TransactionsAccountForTheStep :
    (∃ t, step nineZero = .next t ∧ transactions nineZero =
      [.codeRead 0 0x00000805, .dataRead 0 9, .dataWrite 0 14]) ∧
    (∃ t, step State.reset = .next t ∧ transactions State.reset = []) ∧
    ∃ t, step (State.load [0x03000001] [9, 0]) = .next t ∧
      transactions (State.load [0x03000001] [9, 0]) = [.codeRead 0 0x03000001, .dataRead 1 0] :=
  ⟨⟨_, rfl, by decide⟩, ⟨_, rfl, by decide⟩, _, rfl, by decide⟩

end Sys2Proof.Tests
end

section
/-! Family 20_memory.md: what a step can do to data memory. -/

namespace Sys2Proof.Machine

/-- R44: an executor leaves data memory alone or is the write of an arithmetic opcode to cell `a`. -/
theorem executor_mem_eq_or_update (op : Opcode) (a : Field12) (ipc : Nat) (y : Byte) (t : State) :
    (executor op a ipc y t).mem = t.mem ∨
      (op.toNat ≤ 4 ∧ ∃ f, executor op a ipc y t = t.update a f) := by
  rcases executor_cases op a ipc y t with ⟨hop, -, hf⟩ | ⟨-, -, h⟩ | ⟨-, h⟩ | ⟨-, h⟩
  · exact .inr ⟨hop, hf⟩
  all_goals exact .inl (by simp [h])

/-- R44 for a whole step: data memory stays as it was, or the step is the read-modify-write of the
existing cell `a` of a fetched arithmetic word. -/
theorem step_mem_eq_or_update {s t : State} (h : step s = .next t) :
    t.mem = s.mem ∨ ∃ w f, s.codeRead s.pc = some w ∧ (splitWord w).opcode.toNat ≤ 4 ∧
      (splitWord w).a.toNat < s.dataSize ∧ t = s.fetched.update (splitWord w).a f := by
  obtain ⟨-, ⟨-, rfl⟩ | ⟨w, hw, rfl⟩⟩ := step_cases h
  · exact .inl rfl
  rcases withOperand_cases (splitWord w).a (decodeSrc (splitWord w).b) s
      (executor (splitWord w).opcode (splitWord w).a s.pc) with
    ⟨-, ht⟩ | ⟨-, _, -, -, ht⟩ | ⟨ha, y, -, ht⟩
  · exact .inl (by simp [ht])
  · exact .inl (by simp [ht])
  · rw [ht]
    exact (executor_mem_eq_or_update _ _ _ y s.fetched).imp id
      fun ⟨hop, f, hf⟩ => ⟨w, f, hw, hop, ha, hf⟩

theorem State.read_update_of_ne (s : State) {a : Field12} (f : Byte → Byte) {addr : Nat}
    (h : addr ≠ a.toNat) : (s.update a f).mem.read addr = s.mem.read addr := by
  simp [State.update, Memory.read_write, h]

@[simp] theorem State.update_status (s : State) (a : Field12) (f : Byte → Byte) :
    (s.update a f).status = s.status := rfl

/-- Settles O28: of the two things a step can do to memory, only the read-modify-write of cell `a` can
change a read, and it changes no other address and not the status. -/
theorem onlyArithmeticWritesAndOnlyCellA : Obligations.OnlyArithmeticWritesAndOnlyCellA := by
  refine ⟨fun s a v ha => ⟨?_, fun addr hne => ?_⟩, fun s t addr h hread => ?_⟩
  · simp [State.cell_memWrite, ha]
  · simp [State.cell_memWrite, hne]
  · rcases step_mem_eq_or_update h with hmem | ⟨w, f, hw, hop, ha, rfl⟩
    · exact absurd (by rw [hmem]) hread
    · have haddr : addr = (splitWord w).a.toNat := by
        by_contra hne
        exact hread (State.read_update_of_ne s.fetched f hne)
      exact ⟨haddr ▸ ha, by simpa using running_of_step_next h, w, hw, hop, haddr⟩

end Sys2Proof.Machine
end

section
/-! Family 30_encoding.md: the fields of an instruction word. -/

namespace Sys2Proof.Machine

/-- R62: cutting `len` bits out from bit `start` up is a right shift and then a mask of `len` ones. -/
theorem toNat_extractLsb'_eq_shiftRight_and_mask (w : Word) (start len : Nat) :
    (w.extractLsb' start len).toNat = (w.toNat >>> start) &&& (2 ^ len - 1) := by
  rw [BitVec.extractLsb'_toNat, Nat.and_two_pow_sub_one_eq_mod]

/-- Settles O1: each field is one cut of the word, at bit 24, bit 12 and bit 0. -/
theorem fieldsAreShiftsAndMasks : Obligations.FieldsAreShiftsAndMasks := by
  intro w
  refine ⟨?opcode, ?a, ?b⟩
  case opcode => exact toNat_extractLsb'_eq_shiftRight_and_mask w 24 8
  case a => exact toNat_extractLsb'_eq_shiftRight_and_mask w 12 12
  case b => exact toNat_extractLsb'_eq_shiftRight_and_mask w 0 12

end Sys2Proof.Machine
end

section
/-! Family 40_fetch_decode_resolve.md: the resolver on an immediate. -/

namespace Sys2Proof.Machine

/-- R64 and R87: with the flag set, `decodeSrc` reads an immediate whose value is `b & 0xFF`. -/
theorem decodeSrc_of_flag_set {b : Field12} (h : b[11] = true) :
    decodeSrc b = .imm (b.extractLsb' 8 3) (BitVec.ofNat 8 (b.toNat &&& 0xFF)) := by
  have hlow : b.extractLsb' 0 8 = BitVec.ofNat 8 (b.toNat &&& 0xFF) := by
    apply BitVec.eq_of_toNat_eq
    have hmask : b.toNat &&& 0xFF = b.toNat % 2 ^ 8 := Nat.and_two_pow_sub_one_eq_mod b.toNat 8
    rw [BitVec.extractLsb'_toNat, BitVec.toNat_ofNat, hmask, Nat.shiftRight_zero, Nat.mod_mod]
  rw [← hlow, decodeSrc, immediateFlag, if_pos h]

/-- R87: the only record the resolver can raise on an immediate operand is the one on field `a`. -/
theorem resolve_imm_ne_error_b (a : Field12) (hi : BitVec 3) (v : Byte) (s : State) (ipc : Nat)
    (addr : Field12) : resolve a (.imm hi v) s ≠ .error (.invalidMemoryAccess ipc .b addr) := by
  rcases Nat.lt_or_ge a.toNat s.dataSize with ha | ha
  · simp [resolve_imm ha]
  · simp [resolve_a_out ha]

/-- Settles O6: a `b` with the flag set is an immediate of its low byte, which the resolver hands on
unchecked once `a` is in bounds. -/
theorem immediateIsLowByteInEveryState : Obligations.ImmediateIsLowByteInEveryState := by
  intro a b s hflag
  rw [decodeSrc_of_flag_set hflag]
  exact ⟨fun ha => resolve_imm ha, fun ipc addr => resolve_imm_ne_error_b a _ _ s ipc addr⟩

end Sys2Proof.Machine
end

section
/-! Family 41_arithmetic.md: the words of the arithmetic instructions, their 8-bit results, and what one
that stores leaves in the state. -/

namespace Sys2Proof.Machine

/-! ### Words -/

/-- R63: the three fields do not overlap, so joining them is adding them at their places. -/
theorem toNat_joinFields (f : Fields) :
    (joinFields f).toNat = f.opcode.toNat * 2 ^ 24 + f.a.toNat * 2 ^ 12 + f.b.toNat := by
  have hopShift : (f.opcode.setWidth 32 <<< 24).toNat = f.opcode.toNat <<< 24 := by
    simp only [BitVec.toNat_shiftLeft, BitVec.toNat_setWidth, Nat.shiftLeft_eq]
    omega
  have haShift : (f.a.setWidth 32 <<< 12).toNat = f.a.toNat <<< 12 := by
    simp only [BitVec.toNat_shiftLeft, BitVec.toNat_setWidth, Nat.shiftLeft_eq]
    omega
  have hbWide : (f.b.setWidth 32).toNat = f.b.toNat := BitVec.toNat_setWidth_of_le (by decide)
  have hlow : f.a.toNat <<< 12 + f.b.toNat < 2 ^ 24 := by
    rw [Nat.shiftLeft_eq]
    omega
  calc (joinFields f).toNat
      = f.opcode.toNat <<< 24 ||| f.a.toNat <<< 12 ||| f.b.toNat := by
        rw [joinFields, BitVec.toNat_or, BitVec.toNat_or, hopShift, haShift, hbWide]
    _ = f.opcode.toNat <<< 24 + (f.a.toNat <<< 12 + f.b.toNat) := by
        rw [Nat.or_assoc, ← Nat.shiftLeft_add_eq_or_of_lt f.b.isLt, ← Nat.shiftLeft_add_eq_or_of_lt hlow]
    _ = f.opcode.toNat * 2 ^ 24 + f.a.toNat * 2 ^ 12 + f.b.toNat := by
        rw [Nat.shiftLeft_eq, Nat.shiftLeft_eq, Nat.add_assoc]

theorem toNat_encode (i : Instr) :
    (encode i).toNat = i.opcode.toNat * 2 ^ 24 + i.a.toNat * 2 ^ 12 + (encodeSrc i.b).toNat :=
  toNat_joinFields (fieldsOf i)

/-! ### Results -/

/-- R106: narrowing keeps the residue modulo 256. -/
theorem narrow_eq_ofNat {n : Int} {r : Nat} (h : n % 256 = r) : narrow n = BitVec.ofNat 8 r := by
  apply BitVec.eq_of_toNat_eq
  rw [narrow, BitVec.toNat_ofInt, BitVec.toNat_ofNat]
  omega

theorem aluAdd_eq_ofNat (x y : Byte) : aluAdd x y = BitVec.ofNat 8 ((x.toNat + y.toNat) % 256) :=
  narrow_eq_ofNat (by omega)

theorem aluSub_eq_ofNat (x y : Byte) :
    aluSub x y =
      BitVec.ofNat 8 (if y.toNat ≤ x.toNat then x.toNat - y.toNat else x.toNat + 256 - y.toNat) := by
  apply narrow_eq_ofNat
  split
  case isTrue hle => omega
  case isFalse hlt => omega

theorem aluMul_eq_ofNat (x y : Byte) : aluMul x y = BitVec.ofNat 8 (x.toNat * y.toNat % 256) :=
  narrow_eq_ofNat (by norm_cast)

/-! ### Storing -/

/-- R100: with both operands in bounds, an instruction whose executor is the read-modify-write of cell
`a` by `f` stores `f` of the cell's old value. -/
theorem exec_stores {i : Instr} {s : State} {x y : Byte} {f : Byte → Byte}
    (hx : s.cell i.a.toNat = some x) (hy : operandValue s i.b = some y)
    (hf : ∀ t, executor i.opcode i.a s.pc y t = t.update i.a f) :
    ∃ t, exec i s = .next t ∧ Stored s t i.a (f x) := by
  refine ⟨s.fetched.update i.a f, ?_, stored_update hx f⟩
  rw [exec_eq, withOperand_value _ (State.cell_eq_some.1 hx).1 hy, hf]

/-- Settles O15: the executor of `add` is the update by `aluAdd`, the sum narrowed to its residue. -/
theorem addStoresSumModulo256 : Obligations.AddStoresSumModulo256 := by
  intro a b s x y hx hy
  refine ⟨toNat_encode (.add a b), ?_⟩
  rw [← aluAdd_eq_ofNat]
  exact exec_stores (i := .add a b) (f := (aluAdd · y)) hx hy fun _ => rfl

/-- Settles O16: the executor of `sub` is the update by `aluSub`, which adds 256 where `y` exceeds `x`. -/
theorem subStoresDifferenceModulo256 : Obligations.SubStoresDifferenceModulo256 := by
  intro a b s x y hx hy
  refine ⟨toNat_encode (.sub a b), ?_⟩
  rw [← aluSub_eq_ofNat]
  exact exec_stores (i := .sub a b) (f := (aluSub · y)) hx hy fun _ => rfl

/-- Settles O17: the executor of `mul` is the update by `aluMul`, which keeps the product's low byte. -/
theorem mulStoresLowByteOfProduct : Obligations.MulStoresLowByteOfProduct := by
  intro a b s x y hx hy
  refine ⟨toNat_encode (.mul a b), ?_⟩
  rw [← aluMul_eq_ofNat]
  exact exec_stores (i := .mul a b) (f := (aluMul · y)) hx hy fun _ => rfl

end Sys2Proof.Machine
end

section
/-! Family 42_exit_and_invalid.md: code is straight-line. -/

namespace Sys2Proof.Machine

/-! ### One step -/

@[simp] theorem State.update_pc (s : State) (a : Field12) (f : Byte → Byte) :
    (s.update a f).pc = s.pc := rfl

/-- R157: raising any fault halts the machine with a record. -/
theorem State.raise_faulted_with_record (s : State) (r : FaultRecord) :
    (s.raise r).status = .faulted ∧ ∃ r', (s.raise r).fault = some r' :=
  ⟨rfl, r, rfl⟩

/-- R122: a step goes on at the next index, or exits by a word with the opcode of exit, or faults. -/
theorem step_goes_on_or_exits_or_faults {s t : State} (h : step s = .next t) :
    (t.status = .running ∧ t.pc = s.pc + 1) ∨
    (t.status = .exited ∧ ∃ w, s.codeRead s.pc = some w ∧ (splitWord w).opcode = 0x0F#8) ∨
    (t.status = .faulted ∧ ∃ r, t.fault = some r) := by
  obtain ⟨hs, ⟨-, rfl⟩ | ⟨w, hw, rfl⟩⟩ := step_cases h
  · exact .inr (.inr (State.raise_faulted_with_record ..))
  rcases withOperand_cases (splitWord w).a (decodeSrc (splitWord w).b) s
      (executor (splitWord w).opcode (splitWord w).a s.pc) with
    ⟨-, ht⟩ | ⟨-, _, -, -, ht⟩ | ⟨-, y, -, ht⟩
  · exact .inr (.inr (ht ▸ State.raise_faulted_with_record ..))
  · exact .inr (.inr (ht ▸ State.raise_faulted_with_record ..))
  rw [ht]
  rcases executor_cases (splitWord w).opcode (splitWord w).a s.pc y s.fetched with
    ⟨-, -, f, he⟩ | ⟨-, -, he⟩ | ⟨hexit, he⟩ | ⟨-, he⟩
  · exact .inl (by simp [he, hs])
  · exact .inr (.inr (he ▸ State.raise_faulted_with_record ..))
  · exact .inr (.inl ⟨by simp [he], w, hw, hexit⟩)
  · exact .inr (.inr (he ▸ State.raise_faulted_with_record ..))

theorem step_running_pc {s t : State} (h : step s = .next t) (ht : t.status = .running) :
    t.pc = s.pc + 1 := by
  rcases step_goes_on_or_exits_or_faults h with ⟨-, hpc⟩ | ⟨hexited, -⟩ | ⟨hfaulted, -⟩
  · exact hpc
  · simp [ht] at hexited
  · simp [ht] at hfaulted

/-! ### Several steps -/

/-- A run of `k + 1` steps that answers a state is a step and a run of `k` steps. -/
theorem run_succ_eq_next (M : Host.Core) {k : Nat} {s t : M.State} (h : M.run (k + 1) s = .next t) :
    ∃ u, M.step s = .next u ∧ M.run k u = .next t := by
  rw [Host.Core.run] at h
  split at h
  case h_1 u hu => exact ⟨u, hu, h⟩
  all_goals cases h

theorem core_run_succ_eq_next {k : Nat} {s t : State}
    (h : Host.Core.run Sys2Proof.core (k + 1) s = .next t) :
    ∃ u, step s = .next u ∧ Host.Core.run Sys2Proof.core k u = .next t :=
  run_succ_eq_next Sys2Proof.core h

/-- R158: there is no return from a halt, so a run that ends Running was Running from its start. -/
theorem running_of_core_run_running {k : Nat} {s t : State}
    (h : Host.Core.run Sys2Proof.core k s = .next t) (ht : t.status = .running) :
    s.status = .running := by
  cases k with
  | zero =>
    cases h
    exact ht
  | succ k =>
    obtain ⟨u, hu, -⟩ := core_run_succ_eq_next h
    exact running_of_step_next hu

theorem core_run_running_pc {k : Nat} {s t : State}
    (h : Host.Core.run Sys2Proof.core k s = .next t) (ht : t.status = .running) :
    t.pc = s.pc + k := by
  induction k generalizing s with
  | zero =>
    cases h
    rfl
  | succ k ih =>
    obtain ⟨u, hu, hrun⟩ := core_run_succ_eq_next h
    calc t.pc = u.pc + k := ih hrun
      _ = s.pc + 1 + k := by rw [step_running_pc hu (running_of_core_run_running hrun ht)]
      _ = s.pc + (k + 1) := by omega

/-- Settles O11: the three things a step can do, and for `k` steps induction on `k`; that the start is
Running follows from the end being so. -/
theorem codeRunsStraightLine : Obligations.CodeRunsStraightLine := by
  refine ⟨fun s t h ht => step_running_pc h ht, fun s t h ht => ?_,
    fun k s t _ h ht => core_run_running_pc h ht⟩
  exact (step_goes_on_or_exits_or_faults h).resolve_left fun ⟨hrunning, _⟩ => ht hrunning

end Sys2Proof.Machine
end

section
/-! Family 70_reset_and_hazards.md: what reset and loading leave in the two memories. -/

namespace Sys2Proof.Machine

/-! ### Reset -/

/-- R180, R185: reset answers from a halted state alone, and sets the four registers of the core. -/
theorem assertReset_eq_next {s t : State} :
    assertReset s = .next t ↔ s.status ≠ .running ∧
      t = { s with pc := 0, status := .running, exitCode := 0, fault := none } := by
  cases hs : s.status with
  | running => simp [assertReset, hs]
  | exited => simp [assertReset, hs, eq_comm]
  | faulted => simp [assertReset, hs, eq_comm]

/-! ### Loading -/

@[simp] theorem State.load_mem (code : List Word) (data : List Byte) :
    (State.load code data).mem = Memory.ofBytesFrom 0 data := rfl
@[simp] theorem State.load_code (code : List Word) (data : List Byte) :
    (State.load code data).code = code := rfl
@[simp] theorem State.load_dataSize (code : List Word) (data : List Byte) :
    (State.load code data).dataSize = data.length := rfl

theorem Memory.read_of_forall_ne {m : Memory} {addr : Nat} (h : ∀ p ∈ m, p.1 ≠ addr) :
    m.read addr = Config.unlistedCell := by
  induction m with
  | nil => rfl
  | cons p m ih =>
    obtain ⟨hp, hm⟩ := List.forall_mem_cons.1 h
    rw [Memory.read, if_neg hp, ih hm]

theorem Memory.read_ofBytesFrom_of_lt (vs : List Byte) {k addr : Nat} (h : addr < k) :
    (Memory.ofBytesFrom k vs).read addr = Config.unlistedCell := by
  apply Memory.read_of_forall_ne
  intro p hp
  have hk : k ≤ p.1 := (Memory.mem_ofBytesFrom hp).1
  omega

/-- A byte equal to the unlisted value gets no entry, and reads as itself all the same. -/
theorem Memory.read_ofBytesFrom_cons (k : Nat) (v : Byte) (vs : List Byte) (addr : Nat) :
    (Memory.ofBytesFrom k (v :: vs)).read addr =
      if k = addr then v else (Memory.ofBytesFrom (k + 1) vs).read addr := by
  by_cases hv : v = Config.unlistedCell
  · rw [Memory.ofBytesFrom, if_pos hv]
    split
    case isTrue hk => rw [hv, Memory.read_ofBytesFrom_of_lt vs (by omega)]
    case isFalse => rfl
  · rw [Memory.ofBytesFrom, if_neg hv, Memory.read]

/-- R181: at offset `i` from its first address a loaded memory reads the `i`-th value supplied. -/
theorem Memory.read_ofBytesFrom_add {vs : List Byte} {i : Nat} (h : i < vs.length) (k : Nat) :
    (Memory.ofBytesFrom k vs).read (k + i) = vs[i] := by
  induction vs generalizing k i with
  | nil => simp at h
  | cons v vs ih =>
    rw [Memory.read_ofBytesFrom_cons]
    cases i with
    | zero => simp
    | succ i =>
      have hi : i < vs.length := by simpa using h
      rw [if_neg (by omega), show k + (i + 1) = k + 1 + i by omega, ih hi, List.getElem_cons_succ]

/-- R181 with R42: the cells at the start of a run are the values supplied, and no others. -/
theorem State.cell_load (code : List Word) (data : List Byte) (addr : Nat) :
    (State.load code data).cell addr = data[addr]? := by
  by_cases h : addr < data.length
  · have hread : (State.load code data).mem.read addr = data[addr] := by
      simpa using Memory.read_ofBytesFrom_add h 0
    rw [List.getElem?_eq_getElem h]
    exact State.cell_eq_some.2 ⟨h, hread⟩
  · rw [List.getElem?_eq_none (not_lt.1 h)]
    simp [State.cell, h]

/-- Settles O34: reset sets registers only, and a loaded memory reads back the values it was built from. -/
theorem resetKeepsWhatEnvironmentPlaced : Obligations.ResetKeepsWhatEnvironmentPlaced := by
  refine ⟨fun s t h => ?_, fun code data => ⟨State.load_code code data,
    State.load_dataSize code data, State.cell_load code data⟩⟩
  obtain ⟨-, rfl⟩ := assertReset_eq_next.1 h
  exact ⟨rfl, rfl, State.cell_congr rfl rfl⟩

end Sys2Proof.Machine
end

section
/-! Family other: words, fields and instructions (30_encoding.md). -/

namespace Sys2Proof.Machine

/-! ### The three fields -/

theorem joinFields_splitWord (w : Word) : joinFields (splitWord w) = w := by
  apply BitVec.eq_of_toNat_eq
  rw [toNat_joinFields]
  simp only [splitWord, BitVec.extractLsb'_toNat, Nat.shiftRight_eq_div_pow]
  omega

theorem splitWord_joinFields (f : Fields) : splitWord (joinFields f) = f := by
  have hjoin := toNat_joinFields f
  obtain ⟨op, a, b⟩ := f
  simp only [splitWord, Fields.mk.injEq, ← BitVec.toNat_inj, BitVec.extractLsb'_toNat,
    Nat.shiftRight_eq_div_pow, hjoin]
  omega

/-- Settles O2: both directions, and the sum of `toNat_joinFields`. -/
theorem splitAndJoinAreInverse : Obligations.SplitAndJoinAreInverse :=
  ⟨joinFields_splitWord, splitWord_joinFields, toNat_joinFields⟩

/-! ### The two forms of `b` -/

/-- R64: the immediate flag parts the 4096 values of the field at 2048. -/
theorem flag_clear_iff_lt (b : Field12) : b[11] = false ↔ b.toNat < 2048 := by
  rw [BitVec.getElem_eq_testBit_toNat, Nat.testBit_eq_decide_div_mod_eq, decide_eq_false_iff_not]
  omega

theorem decodeSrc_of_flag_clear {b : Field12} (h : b[11] = false) : decodeSrc b = .cell b := by
  simp [decodeSrc, immediateFlag, h]

theorem decodeSrc_eq_cell_iff {b addr : Field12} :
    decodeSrc b = .cell addr ↔ b[11] = false ∧ addr = b := by
  cases hflag : b[11] with
  | false => simp [decodeSrc_of_flag_clear hflag, eq_comm]
  | true => simp [decodeSrc_of_flag_set hflag]

theorem wellFormed_cell_iff (addr : Field12) :
    (Src.cell addr).wellFormed = true ↔ addr[11] = false := by
  rw [flag_clear_iff_lt, Src.wellFormed, decide_eq_true_iff]
  omega

theorem decodeSrc_wellFormed (b : Field12) : (decodeSrc b).wellFormed = true := by
  cases hflag : b[11] with
  | false => rw [decodeSrc_of_flag_clear hflag, wellFormed_cell_iff, hflag]
  | true => rw [decodeSrc_of_flag_set hflag, Src.wellFormed]

/-- R64: the field of an immediate is the flag, the ignored bits and the value, which do not overlap. -/
theorem toNat_encodeSrc_imm (ignored : BitVec 3) (value : Byte) :
    (encodeSrc (.imm ignored value)).toNat = 2048 + ignored.toNat * 256 + value.toNat := by
  have hshift : (ignored.setWidth 12 <<< 8).toNat = ignored.toNat <<< 8 := by
    simp only [BitVec.toNat_shiftLeft, BitVec.toNat_setWidth, Nat.shiftLeft_eq]
    omega
  have hvalue : (value.setWidth 12).toNat = value.toNat := BitVec.toNat_setWidth_of_le (by decide)
  have hlow : ignored.toNat <<< 8 + value.toNat < 2 ^ 11 := by
    rw [Nat.shiftLeft_eq]
    omega
  calc (encodeSrc (.imm ignored value)).toNat
      = 1 <<< 11 ||| ignored.toNat <<< 8 ||| value.toNat := by
        rw [encodeSrc, BitVec.toNat_or, BitVec.toNat_or, hshift, hvalue]
        rfl
    _ = 1 <<< 11 + (ignored.toNat <<< 8 + value.toNat) := by
        rw [Nat.or_assoc, ← Nat.shiftLeft_add_eq_or_of_lt value.isLt,
          ← Nat.shiftLeft_add_eq_or_of_lt hlow]
    _ = 2048 + ignored.toNat * 256 + value.toNat := by
        rw [Nat.shiftLeft_eq, Nat.shiftLeft_eq]
        omega

theorem decodeSrc_eq_imm_of_flag_set {b : Field12} (h : b[11] = true) :
    decodeSrc b = .imm (b.extractLsb' 8 3) (b.extractLsb' 0 8) := by
  rw [decodeSrc, immediateFlag, if_pos h]

theorem encodeSrc_decodeSrc (b : Field12) : encodeSrc (decodeSrc b) = b := by
  cases hflag : b[11] with
  | false => rw [decodeSrc_of_flag_clear hflag, encodeSrc]
  | true =>
    have hge : ¬ b.toNat < 2048 := by simp [← flag_clear_iff_lt, hflag]
    apply BitVec.eq_of_toNat_eq
    rw [decodeSrc_eq_imm_of_flag_set hflag, toNat_encodeSrc_imm]
    simp only [BitVec.extractLsb'_toNat, Nat.shiftRight_eq_div_pow]
    omega

theorem decodeSrc_encodeSrc {src : Src} (h : src.wellFormed = true) :
    decodeSrc (encodeSrc src) = src := by
  cases src with
  | cell addr => exact decodeSrc_of_flag_clear ((wellFormed_cell_iff addr).1 h)
  | imm ignored value =>
    have hnat := toNat_encodeSrc_imm ignored value
    have hflag : (encodeSrc (.imm ignored value))[11] = true := by
      rw [← Bool.not_eq_false, flag_clear_iff_lt]
      omega
    simp only [decodeSrc_eq_imm_of_flag_set hflag, Src.imm.injEq, ← BitVec.toNat_inj,
      BitVec.extractLsb'_toNat, Nat.shiftRight_eq_div_pow, hnat]
    omega

/-! ### Instructions and words -/

theorem wellFormed_iff_b (i : Instr) : i.wellFormed = i.b.wellFormed := by
  cases i <;> rfl

theorem not_mem_iff_undefined (op : Opcode) :
    op ∉ ([0x00#8, 0x01#8, 0x02#8, 0x03#8, 0x04#8, 0x0F#8] : List Opcode) ↔
      definedOpcode op = false :=
  decide_eq_false_iff_not.symm

/-- R66: an instruction is found again from its opcode and its two operands. -/
theorem decodeFields_fieldsOf {i : Instr} (h : i.wellFormed = true) :
    decodeFields (fieldsOf i) = .ok i := by
  have hsrc : decodeSrc (encodeSrc i.b) = i.b := decodeSrc_encodeSrc (wellFormed_iff_b i ▸ h)
  cases i <;> simpa [decodeFields, fieldsOf, Instr.opcode, Instr.a, Instr.b] using hsrc

theorem decode_encode {i : Instr} (h : i.wellFormed = true) : decode (encode i) = .ok i := by
  rw [decode, encode, splitWord_joinFields, decodeFields_fieldsOf h]

/-- The three parts of a decoded instruction are those of its word. -/
theorem decode_eq_ok {w : Word} {i : Instr} (h : decode w = .ok i) :
    i.opcode = (splitWord w).opcode ∧ i.a = (splitWord w).a ∧ i.b = decodeSrc (splitWord w).b := by
  rcases decode_cases w with ⟨j, hj, hparts⟩ | ⟨-, herr⟩
  · cases hj.symm.trans h
    exact hparts
  · cases herr.symm.trans h

theorem encode_of_decode {w : Word} {i : Instr} (h : decode w = .ok i) : encode i = w := by
  obtain ⟨hop, ha, hb⟩ := decode_eq_ok h
  rw [encode, fieldsOf, hop, ha, hb, encodeSrc_decodeSrc, joinFields_splitWord]

theorem wellFormed_of_decode {w : Word} {i : Instr} (h : decode w = .ok i) :
    i.wellFormed = true := by
  obtain ⟨-, -, hb⟩ := decode_eq_ok h
  rw [wellFormed_iff_b, hb, decodeSrc_wellFormed]

theorem decode_rejects_iff (w : Word) :
    (∃ r, decode w = .error r) ↔ definedOpcode (splitWord w).opcode = false := by
  rcases decode_cases w with ⟨i, hi, hop, -⟩ | ⟨hop, herr⟩
  · simp [hi, ← hop, definedOpcode_opcode]
  · simp [herr, hop]

/-- Settles O3: an instruction and its word have the same three fields, and `b` keeps every bit. -/
theorem decodeEncodeAgree : Obligations.DecodeEncodeAgree :=
  ⟨fun _ h => decode_encode h, fun _ _ h => ⟨wellFormed_of_decode h, encode_of_decode h⟩,
    fun w => (decode_rejects_iff w).trans (not_mem_iff_undefined _).symm⟩

/-- Settles O4: each word decodes by computation. -/
theorem sampleWordsDecode : Obligations.SampleWordsDecode :=
  ⟨rfl, rfl, rfl, rfl, rfl, rfl⟩

/-! ### The ignored bits of an immediate -/

theorem withOperand_imm_ignored (a : Field12) (hi hi' : BitVec 3) (v : Byte) (s : State)
    (exe : Byte → State → State) :
    withOperand a (.imm hi v) s exe = withOperand a (.imm hi' v) s exe := rfl

theorem decodeFields_eq_ok {f : Fields} {i : Instr} (h : decodeFields f = .ok i) :
    i.opcode = f.opcode ∧ i.a = f.a ∧ i.b = decodeSrc f.b := by
  have hdecode : decode (joinFields f) = .ok i := by rw [decode, splitWord_joinFields, h]
  simpa [splitWord_joinFields] using decode_eq_ok hdecode

/-- Settles O5: the two instructions have the same opcode, `a` and value, and the shared stages do not
look at the ignored bits. -/
theorem ignoredImmediateBitsChangeNothing : Obligations.IgnoredImmediateBitsChangeNothing := by
  intro op a b b' i i' s hflag hflag' hvalue hi hi'
  obtain ⟨hop, ha, hb⟩ := decodeFields_eq_ok hi
  obtain ⟨hop', ha', hb'⟩ := decodeFields_eq_ok hi'
  rw [decodeSrc_eq_imm_of_flag_set hflag] at hb
  rw [decodeSrc_eq_imm_of_flag_set hflag'] at hb'
  rw [exec_eq, exec_eq, hop, hop', ha, ha', hb, hb', hvalue, withOperand_imm_ignored]

end Sys2Proof.Machine
end

section
/-! Family other: the canonical form of data memory (log 3). -/

namespace Sys2Proof.Machine

/-- A canonical memory reads at its first address a value that no unlisted cell has. -/
theorem Memory.read_head_ne {k : Nat} {v : Byte} {m : Memory} (h : Memory.wf ((k, v) :: m)) :
    Memory.read ((k, v) :: m) k ≠ Config.unlistedCell := by
  simpa [Memory.read] using h.2 (k, v) (by simp)

/-- A canonical memory reads nothing listed below its first address. -/
theorem Memory.read_below_head {k addr : Nat} {v : Byte} {m : Memory} (h : Memory.wf ((k, v) :: m))
    (hlt : addr < k) : Memory.read ((k, v) :: m) addr = Config.unlistedCell := by
  apply Memory.read_of_forall_ne
  have hrising := (List.pairwise_cons.1 h.1).1
  intro p hp
  rcases List.mem_cons.1 hp with rfl | hp
  · exact hlt.ne'
  · exact (hlt.trans (hrising p hp)).ne'

theorem Memory.wf_tail {p : Host.Cell} {m : Memory} (h : Memory.wf (p :: m)) : m.wf :=
  ⟨(List.pairwise_cons.1 h.1).2, fun q hq => h.2 q (by simp [hq])⟩

/-- The tail of a canonical memory reads as the whole does, but at the first address as unlisted. -/
theorem Memory.read_tail {k : Nat} {v : Byte} {m : Memory} (h : Memory.wf ((k, v) :: m)) (addr : Nat) :
    m.read addr = if addr = k then Config.unlistedCell else Memory.read ((k, v) :: m) addr := by
  by_cases hk : addr = k
  · rw [if_pos hk, hk]
    exact Memory.read_of_forall_ne fun p hp => ((List.pairwise_cons.1 h.1).1 p hp).ne'
  · rw [if_neg hk, Memory.read, if_neg (Ne.symm hk)]

/-- Two canonical memories that read alike begin at the same address: the lower of two different first
addresses would read as unlisted in the other. -/
theorem Memory.head_address_eq {k k' : Nat} {v v' : Byte} {m m' : Memory}
    (h : Memory.wf ((k, v) :: m)) (h' : Memory.wf ((k', v') :: m'))
    (hread : ∀ a, Memory.read ((k, v) :: m) a = Memory.read ((k', v') :: m') a) : k = k' := by
  rcases lt_trichotomy k k' with hlt | heq | hgt
  · exact absurd ((hread k).trans (Memory.read_below_head h' hlt)) (Memory.read_head_ne h)
  · exact heq
  · exact absurd ((hread k').symm.trans (Memory.read_below_head h hgt)) (Memory.read_head_ne h')

theorem Memory.eq_of_read_eq {m m' : Memory} (h : m.wf) (h' : m'.wf)
    (hread : ∀ a, m.read a = m'.read a) : m = m' := by
  induction m generalizing m' with
  | nil =>
    cases m' with
    | nil => rfl
    | cons p' m' => exact absurd (hread p'.1).symm (Memory.read_head_ne h')
  | cons p m ih =>
    cases m' with
    | nil => exact absurd (hread p.1) (Memory.read_head_ne h)
    | cons p' m' =>
      obtain ⟨k, v⟩ := p
      obtain ⟨k', v'⟩ := p'
      obtain rfl := Memory.head_address_eq h h' hread
      have hv : v = v' := by simpa [Memory.read] using hread k
      have hm : m = m' := ih (Memory.wf_tail h) (Memory.wf_tail h') fun a => by
        rw [Memory.read_tail h, Memory.read_tail h', hread]
      rw [hv, hm]

/-- Settles O37: induction on both lists, whose first entries must agree. -/
theorem memoriesThatReadAlikeAreEqual : Obligations.MemoriesThatReadAlikeAreEqual :=
  fun _ _ h h' hread => Memory.eq_of_read_eq h h' hread

/-- Writing to a cell of a canonical memory what it holds changes nothing. -/
theorem Memory.write_read_self {m : Memory} (h : m.wf) (a : Nat) : m.write a (m.read a) = m := by
  apply Memory.eq_of_read_eq (Memory.write_wf h a _) h
  intro addr
  rw [Memory.read_write]
  split
  case isTrue heq => rw [heq]
  case isFalse => rfl

end Sys2Proof.Machine
end

section
/-! Family other: what a fetched word can do, as a relation between the state at the start of the step
and the one after it. A claim about every path is a case split over it; a claim about one path is its
constructor. -/

namespace Sys2Proof.Machine

/-! ### The executor, one equation per effect -/

/-- What an arithmetic opcode makes of the old value `x` of cell `a`, given `B = y` (R101 to R105). -/
def storedValue (op : Opcode) (y x : Byte) : Byte :=
  if op = 0x00#8 then aluAdd x y
  else if op = 0x01#8 then aluSub x y
  else if op = 0x02#8 then aluMul x y
  else if op = 0x03#8 then aluDiv x y
  else aluMod x y

theorem arithmetic_opcode_cases {op : Opcode} (h : op.toNat ≤ 4) :
    op = 0x00#8 ∨ op = 0x01#8 ∨ op = 0x02#8 ∨ op = 0x03#8 ∨ op = 0x04#8 := by
  simp only [← BitVec.toNat_inj, BitVec.reduceToNat]
  omega

theorem executor_stores {op : Opcode} {y : Byte} (hop : op.toNat ≤ 4)
    (hdiv : ¬((op = 0x03#8 ∨ op = 0x04#8) ∧ y = 0#8)) (a : Field12) (ipc : Nat) (t : State) :
    executor op a ipc y t = t.update a (storedValue op y) := by
  rcases arithmetic_opcode_cases hop with rfl | rfl | rfl | rfl | rfl
  case inl | inr.inl | inr.inr.inl => rfl
  all_goals
    have hy : y ≠ 0#8 := fun hy => hdiv ⟨by decide, hy⟩
    exact if_neg hy

theorem executor_divides_by_zero {op : Opcode} (hop : op = 0x03#8 ∨ op = 0x04#8) (a : Field12)
    (ipc : Nat) (t : State) : executor op a ipc 0#8 t = t.raise (.divisionByZero ipc op) := by
  rcases hop with rfl | rfl <;> rfl

theorem executor_exits (a : Field12) (ipc : Nat) (y : Byte) (t : State) :
    executor 0x0F#8 a ipc y t = t.haltExit y := rfl

/-! ### The effect of a fetched word -/

/-- `Effect op a b s t`: from `s`, fetching opcode `op` with operands `a` and `b` leads to `t`. One
constructor for each outcome of R84 to R90, with the checks that led to it. -/
inductive Effect (op : Opcode) (a : Field12) (b : Src) (s : State) : State → Prop
  | aOut (ha : s.dataSize ≤ a.toNat) :
      Effect op a b s (s.fetched.raise (.invalidMemoryAccess s.pc .a a))
  | bOut {addr : Field12} (ha : a.toNat < s.dataSize) (hb : b = .cell addr)
      (haddr : s.dataSize ≤ addr.toNat) :
      Effect op a b s (s.fetched.raise (.invalidMemoryAccess s.pc .b addr))
  | undefined {y : Byte} (ha : a.toNat < s.dataSize) (hy : operandValue s b = some y)
      (hop : definedOpcode op = false) :
      Effect op a b s (s.fetched.raise (.invalidInstruction s.pc op))
  | dividesByZero (ha : a.toNat < s.dataSize) (hy : operandValue s b = some 0#8)
      (hop : op = 0x03#8 ∨ op = 0x04#8) :
      Effect op a b s (s.fetched.raise (.divisionByZero s.pc op))
  | exits {y : Byte} (ha : a.toNat < s.dataSize) (hy : operandValue s b = some y)
      (hop : op = 0x0F#8) :
      Effect op a b s (s.fetched.haltExit y)
  | stores {y : Byte} (ha : a.toNat < s.dataSize) (hy : operandValue s b = some y)
      (hop : op.toNat ≤ 4) (hdiv : ¬((op = 0x03#8 ∨ op = 0x04#8) ∧ y = 0#8)) :
      Effect op a b s (s.fetched.update a (storedValue op y))

section
variable {op : Opcode} {a : Field12} {b : Src} {s t : State}

theorem withOperand_a_out (h : s.dataSize ≤ a.toNat) (exe : Byte → State → State) :
    withOperand a b s exe = s.fetched.raise (.invalidMemoryAccess s.pc .a a) := by
  rw [withOperand, resolve_a_out h]

theorem withOperand_b_out {addr : Field12} (ha : a.toNat < s.dataSize) (h : s.dataSize ≤ addr.toNat)
    (exe : Byte → State → State) :
    withOperand a (.cell addr) s exe = s.fetched.raise (.invalidMemoryAccess s.pc .b addr) := by
  rw [withOperand, resolve_b_out ha h]

theorem effect_withOperand (op : Opcode) (a : Field12) (b : Src) (s : State) :
    Effect op a b s (withOperand a b s (executor op a s.pc)) := by
  rcases withOperand_cases a b s (executor op a s.pc) with
    ⟨ha, h⟩ | ⟨ha, addr, hb, haddr, h⟩ | ⟨ha, y, hy, h⟩
  · rw [h]; exact .aOut ha
  · rw [h]; exact .bOut ha hb haddr
  rw [h]
  rcases executor_cases op a s.pc y s.fetched with ⟨hop, hdiv, -⟩ | ⟨hop, rfl, he⟩ | ⟨hop, he⟩ | ⟨hop, he⟩
  · rw [executor_stores hop hdiv]; exact .stores ha hy hop hdiv
  · rw [he]; exact .dividesByZero ha hy hop
  · rw [he]; exact .exits ha hy hop
  · rw [he]; exact .undefined ha hy hop

/-- The shared stages and the executor, as a function, are the relation. -/
theorem effect_iff : Effect op a b s t ↔ withOperand a b s (executor op a s.pc) = t := by
  constructor
  · rintro (ha | ⟨ha, rfl, haddr⟩ | ⟨ha, hy, hop⟩ | ⟨ha, hy, hop⟩ | ⟨ha, hy, rfl⟩ | ⟨ha, hy, hop, hdiv⟩)
    · exact withOperand_a_out ha _
    · exact withOperand_b_out ha haddr _
    · rw [withOperand_value _ ha hy, executor_undefined hop]
    · rw [withOperand_value _ ha hy, executor_divides_by_zero hop]
    · rw [withOperand_value _ ha hy, executor_exits]
    · rw [withOperand_value _ ha hy, executor_stores hop hdiv]
  · rintro rfl
    exact effect_withOperand op a b s

end

theorem exec_eq_next_iff {i : Instr} {s t : State} :
    exec i s = .next t ↔ Effect i.opcode i.a i.b s t := by
  rw [exec_eq, effect_iff, Host.Outcome.next.injEq]

/-- The effect of a whole word, by its fields. -/
abbrev WordEffect (w : Word) (s t : State) : Prop :=
  Effect (splitWord w).opcode (splitWord w).a (decodeSrc (splitWord w).b) s t

theorem step_eq_next_of_wordEffect {s t : State} {w : Word} (hs : s.status = .running)
    (hw : s.codeRead s.pc = some w) (h : WordEffect w s t) : step s = .next t := by
  rw [step_fetched hs hw, effect_iff.1 h]

/-- Everything a step can do: InvalidPc at the end of the code, or the effect of the fetched word. -/
theorem step_effect {s t : State} (h : step s = .next t) :
    s.status = .running ∧ ((s.codeSize ≤ s.pc ∧ t = s.raise (.invalidPc s.pc)) ∨
      ∃ w, s.codeRead s.pc = some w ∧ WordEffect w s t) := by
  obtain ⟨hs, hpast | ⟨w, hw, ht⟩⟩ := step_cases h
  · exact ⟨hs, .inl hpast⟩
  · exact ⟨hs, .inr ⟨w, hw, effect_iff.2 ht.symm⟩⟩

theorem exec_total (i : Instr) (s : State) : ∃ t, exec i s = .next t :=
  ⟨_, exec_eq i s⟩

theorem step_total {s : State} (h : s.status = .running) : ∃ t, step s = .next t := by
  rcases Nat.lt_or_ge s.pc s.codeSize with hlt | hge
  · obtain ⟨w, hw, -⟩ := fetch_of_lt hlt
    exact ⟨_, step_fetched h hw⟩
  · exact ⟨_, step_past_end h hge⟩

/-! ### What every effect leaves -/

@[simp] theorem State.update_mem (s : State) (a : Field12) (f : Byte → Byte) :
    (s.update a f).mem = s.mem.write a.toNat (f (s.memRead a)) := rfl
@[simp] theorem State.update_exitCode (s : State) (a : Field12) (f : Byte → Byte) :
    (s.update a f).exitCode = s.exitCode := rfl
@[simp] theorem State.update_fault (s : State) (a : Field12) (f : Byte → Byte) :
    (s.update a f).fault = s.fault := rfl
@[simp] theorem State.update_code (s : State) (a : Field12) (f : Byte → Byte) :
    (s.update a f).code = s.code := rfl
@[simp] theorem State.update_dataSize (s : State) (a : Field12) (f : Byte → Byte) :
    (s.update a f).dataSize = s.dataSize := rfl

theorem State.cell_update_self (s : State) (a : Field12) (f : Byte → Byte) :
    (s.update a f).cell a.toNat = (s.cell a.toNat).map f := by
  by_cases ha : a.toNat < s.dataSize
  · simp [State.cell, ha, Memory.read_write, State.memRead]
  · simp [State.cell, ha]

theorem State.cell_update_of_ne (s : State) {a : Field12} (f : Byte → Byte) {addr : Nat}
    (h : addr ≠ a.toNat) : (s.update a f).cell addr = s.cell addr := by
  simp [State.cell, Memory.read_write, h]

@[simp] theorem State.cell_fetched (s : State) (addr : Nat) : s.fetched.cell addr = s.cell addr := rfl
@[simp] theorem State.cell_raise (s : State) (r : FaultRecord) (addr : Nat) :
    (s.raise r).cell addr = s.cell addr := rfl
@[simp] theorem State.cell_haltExit (s : State) (y : Byte) (addr : Nat) :
    (s.haltExit y).cell addr = s.cell addr := rfl

section
variable {op : Opcode} {a : Field12} {b : Src} {s t : State}

theorem Effect.pc_eq (h : Effect op a b s t) : t.pc = s.pc + 1 := by
  cases h <;> rfl

theorem Effect.code_eq (h : Effect op a b s t) : t.code = s.code := by
  cases h <;> rfl

theorem Effect.dataSize_eq (h : Effect op a b s t) : t.dataSize = s.dataSize := by
  cases h <;> rfl

theorem Effect.cell_eq (h : Effect op a b s t) {addr : Nat} (hne : addr ≠ a.toNat) :
    t.cell addr = s.cell addr := by
  cases h with
  | stores => exact State.cell_update_of_ne s.fetched _ hne
  | _ => rfl

/-- Only the arithmetic effect goes on, and only it changes a cell. -/
theorem Effect.cell_eq_of_halts (h : Effect op a b s t) (hs : s.status = .running)
    (ht : t.status ≠ .running) (addr : Nat) : t.cell addr = s.cell addr := by
  cases h with
  | stores => exact absurd hs ht
  | _ => rfl

end

theorem step_pc {s t : State} (h : step s = .next t) :
    t.pc = if s.pc < s.codeSize then s.pc + 1 else s.pc := by
  obtain ⟨-, ⟨hpast, rfl⟩ | ⟨w, hw, heff⟩⟩ := step_effect h
  · rw [if_neg (not_lt.2 hpast), State.raise_pc]
  · rw [if_pos (codeRead_lt hw), heff.pc_eq]

theorem step_code {s t : State} (h : step s = .next t) : t.code = s.code := by
  obtain ⟨-, ⟨-, rfl⟩ | ⟨w, -, heff⟩⟩ := step_effect h
  · rfl
  · exact heff.code_eq

end Sys2Proof.Machine
end

section
/-! Family other: the invariant, at reset and through every step, and that every run ends. -/

namespace Sys2Proof.Machine

/-! ### The word a record is read back from -/

/-- After the fetch the last word is the one at the old `pc`. -/
@[simp] theorem State.lastWord_fetched (s : State) : s.fetched.lastWord s.pc = s.codeRead s.pc := by
  simp [State.lastWord, State.codeRead]

@[simp] theorem State.lastWord_raise (s : State) (r : FaultRecord) (ipc : Nat) :
    (s.raise r).lastWord ipc = s.lastWord ipc := rfl

@[simp] theorem State.lastWord_haltExit (s : State) (y : Byte) (ipc : Nat) :
    (s.haltExit y).lastWord ipc = s.lastWord ipc := rfl

theorem resultOk_running_iff {s : State} (hs : s.status = .running) :
    s.resultOk = true ↔ s.exitCode = 0 ∧ s.fault = none := by
  simp [State.resultOk, hs]

theorem resultOk_raise_iff (s : State) (r : FaultRecord) :
    (s.raise r).resultOk = true ↔ s.exitCode = 0 ∧ (s.raise r).recordOk r = true := by
  change (decide (s.exitCode = 0) && (s.raise r).recordOk r) = true ↔ _
  rw [Bool.and_eq_true, decide_eq_true_iff]

/-! ### One step -/

theorem State.memOk_update {s : State} {a : Field12} (h : s.memOk) (ha : a.toNat < s.dataSize)
    (f : Byte → Byte) : (s.update a f).memOk :=
  State.memOk_memWrite h ha _

/-- Each fault of a fetched word records the word's own operand or opcode, after the checks that the
record stands for. -/
theorem Effect.resultOk {s t : State} {w : Word} (h : WordEffect w s t)
    (hw : s.codeRead s.pc = some w) (hs : s.status = .running) (hcode : s.exitCode = 0)
    (hfault : s.fault = none) : t.resultOk = true := by
  cases h with
  | aOut ha => simp [resultOk_raise_iff, State.recordOk, hcode, hw, ha]
  | bOut ha hb haddr =>
    obtain ⟨hflag, rfl⟩ := decodeSrc_eq_cell_iff.1 hb
    have hlt := (flag_clear_iff_lt _).1 hflag
    simp [resultOk_raise_iff, State.recordOk, hcode, hw, ha, haddr, hlt]
  | undefined ha hy hop =>
    have hvalue := State.resolvedValue_eq_some.2 ⟨ha, hy⟩
    simp [resultOk_raise_iff, State.recordOk, hcode, hw, hop, hvalue]
  | dividesByZero ha hy hop =>
    have hvalue := State.resolvedValue_eq_some.2 ⟨ha, hy⟩
    simp [resultOk_raise_iff, State.recordOk, hcode, hw, hop, hvalue]
  | exits ha hy hop =>
    have hvalue := State.resolvedValue_eq_some.2 ⟨ha, hy⟩
    simp [State.resultOk, hw, hop, hvalue, hfault]
  | stores => exact (resultOk_running_iff (by simpa using hs)).2 ⟨hcode, hfault⟩

theorem Effect.memOk {op : Opcode} {a : Field12} {b : Src} {s t : State} (h : Effect op a b s t)
    (hmem : s.memOk) : t.memOk := by
  cases h with
  | stores ha => exact State.memOk_update (s := s.fetched) hmem ha _
  | _ => exact hmem

theorem step_keeps_inv {s t : State} (hinv : s.Inv) (h : step s = .next t) : t.Inv := by
  obtain ⟨hmem, hpc, hresult⟩ := hinv
  obtain ⟨hs, ⟨hpast, rfl⟩ | ⟨w, hw, heff⟩⟩ := step_effect h
  all_goals obtain ⟨hcode, hfault⟩ := (resultOk_running_iff hs).1 hresult
  · refine ⟨hmem, hpc, (resultOk_raise_iff s _).2 ⟨hcode, ?_⟩⟩
    have hend : s.pc = s.codeSize := le_antisymm hpc hpast
    simpa [State.recordOk, State.codeSize] using hend
  · refine ⟨heff.memOk hmem, ?_, heff.resultOk hw hs hcode hfault⟩
    rw [heff.pc_eq, State.codeSize, heff.code_eq]
    exact codeRead_lt hw

/-- Settles O36: the record or exit code of each effect of the fetched word goes with that word. -/
theorem stepKeepsInvariant : Obligations.StepKeepsInvariant :=
  fun _ _ hinv h => step_keeps_inv hinv h

/-! ### Reset -/

theorem load_inv (code : List Word) (data : List Byte) : (State.load code data).Inv := by
  refine ⟨⟨Memory.ofBytesFrom_wf 0 data, fun p hp => ?_⟩, Nat.zero_le _, rfl⟩
  obtain ⟨-, hlt, -⟩ := Memory.mem_ofBytesFrom hp
  simpa using hlt

/-- Settles O35: a run starts with a loaded memory or the one it had, at `pc` 0 and with no result. -/
theorem invariantAtReset : Obligations.InvariantAtReset := by
  refine ⟨by decide, load_inv, fun s t ⟨hmem, _, _⟩ h => ?_⟩
  obtain ⟨-, rfl⟩ := assertReset_eq_next.1 h
  exact ⟨hmem, Nat.zero_le _, rfl⟩

/-! ### Every run ends -/

theorem core_run_keeps_inv {k : Nat} {s t : State} (hinv : s.Inv)
    (h : Host.Core.run Sys2Proof.core k s = .next t) : t.Inv := by
  induction k generalizing s with
  | zero =>
    cases h
    exact hinv
  | succ k ih =>
    obtain ⟨u, hu, hrun⟩ := core_run_succ_eq_next h
    exact ih (step_keeps_inv hinv hu) hrun

/-- R122, R125: a step that does not halt comes one word nearer the end of the code. -/
theorem step_running_nearer_end {s t : State} (h : step s = .next t) (ht : t.status = .running) :
    t.codeSize - t.pc < s.codeSize - s.pc := by
  have hlt : s.pc < s.codeSize := by
    by_contra hge
    rw [step_past_end (running_of_step_next h) (not_lt.1 hge)] at h
    cases h
    cases ht
  rw [step_running_pc h ht, State.codeSize, step_code h, ← State.codeSize]
  omega

theorem core_run_halts {n : Nat} {s : State} (hs : s.status = .running) (hn : s.codeSize - s.pc ≤ n) :
    ∃ k t, k ≤ n + 1 ∧ Host.Core.run Sys2Proof.core k s = .next t ∧ t.status ≠ .running := by
  induction n generalizing s with
  | zero =>
    obtain ⟨t, ht⟩ := step_total hs
    refine ⟨1, t, le_rfl, core_run_next ht 0, fun hrunning => ?_⟩
    have hnearer := step_running_nearer_end ht hrunning
    omega
  | succ n ih =>
    obtain ⟨t, ht⟩ := step_total hs
    by_cases hrunning : t.status = .running
    · have hnearer := step_running_nearer_end ht hrunning
      obtain ⟨k, u, hk, hrun, hu⟩ := ih hrunning (by omega)
      exact ⟨k + 1, u, by omega, (core_run_next ht k).trans hrun, hu⟩
    · exact ⟨1, t, by omega, core_run_next ht 0, hrunning⟩

theorem runFor_of_halted {s : State} (h : s.status ≠ .running) (n : Nat) : runFor n s = s := by
  cases n with
  | zero => rfl
  | succ n => rw [runFor, step_of_halted h]

/-- Steps enough to halt lead `runFor` to the halted state, whatever is left over. -/
theorem runFor_of_core_run {k n : Nat} {s t : State}
    (h : Host.Core.run Sys2Proof.core k s = .next t) (ht : t.status ≠ .running) (hk : k ≤ n) :
    runFor n s = t := by
  induction k generalizing s n with
  | zero =>
    cases h
    exact runFor_of_halted ht n
  | succ k ih =>
    obtain ⟨u, hu, hrun⟩ := core_run_succ_eq_next h
    obtain ⟨n, rfl⟩ := Nat.exists_eq_add_of_lt hk
    rw [runFor, hu]
    exact ih hrun (by omega)

/-- R131: a halted state whose result registers agree with its status shows a result. -/
theorem result_of_halted {s : State} (hok : s.resultOk = true) (hs : s.status ≠ .running) :
    ∃ r, s.result = some r := by
  cases hstatus : s.status with
  | running => exact absurd hstatus hs
  | exited => exact ⟨.exited s.exitCode, by rw [State.result, hstatus]⟩
  | faulted =>
    cases hfault : s.fault with
    | none => simp [State.resultOk, hstatus, hfault] at hok
    | some r => exact ⟨.faulted r, by simp [State.result, hstatus, hfault]⟩

/-- Settles O14: induction on the words left, and the invariant for the result of the halted state. -/
theorem everyRunEnds : Obligations.EveryRunEnds := by
  refine ⟨fun s hs => core_run_halts hs le_rfl, fun code data => ?_⟩
  obtain ⟨k, t, hk, hrun, ht⟩ := core_run_halts (s := State.load code data) (n := code.length) rfl le_rfl
  obtain ⟨-, -, hok⟩ := core_run_keeps_inv (load_inv code data) hrun
  rw [run, runFor_of_core_run hrun ht hk]
  exact result_of_halted hok ht

end Sys2Proof.Machine
end

section
/-! Family other: the step is the pseudocode of R90, seen through `State.abstract`. -/

namespace Sys2Proof.Machine

/-! ### Updates of the state, seen by the pseudocode -/

theorem State.abstract_raise (s : State) (r : FaultRecord) :
    (s.raise r).abstract = s.abstract.raise r := rfl

theorem State.abstract_haltExit (s : State) (y : Byte) :
    (s.haltExit y).abstract = { s.abstract with status := .exited, exitCode := y.toNat } := rfl

theorem State.abstract_update (s : State) (a : Field12) (f : Byte → Byte) :
    (s.update a f).abstract = s.abstract.memWrite a.toNat (f (s.memRead a)).toNat := by
  have hmem : (s.update a f).abstract.mem =
      fun i => if i = a.toNat then (f (s.memRead a)).toNat else (s.mem.read i).toNat := by
    funext i
    simp only [State.abstract, State.update_mem, Memory.read_write, apply_ite BitVec.toNat]
  exact congrArg (fun mem => { s.abstract with mem := mem }) hmem

/-! ### The 8-bit results as natural numbers -/

theorem toNat_aluAdd (x y : Byte) : (aluAdd x y).toNat = (x.toNat + y.toNat) % 256 := by
  rw [aluAdd_eq_ofNat, BitVec.toNat_ofNat, Nat.mod_mod]

theorem toNat_aluSub (x y : Byte) : (aluSub x y).toNat =
    if y.toNat ≤ x.toNat then x.toNat - y.toNat else x.toNat + 256 - y.toNat := by
  rw [aluSub_eq_ofNat, BitVec.toNat_ofNat]
  split <;> omega

theorem toNat_aluMul (x y : Byte) : (aluMul x y).toNat = x.toNat * y.toNat % 256 := by
  rw [aluMul_eq_ofNat, BitVec.toNat_ofNat, Nat.mod_mod]

/-- A result no greater than the byte `x` is kept exactly. -/
theorem toNat_narrow_of_le {x : Byte} {n : Nat} (h : n ≤ x.toNat) : (narrow (n : Int)).toNat = n := by
  rw [narrow_eq_ofNat (r := n) (by omega), BitVec.toNat_ofNat]
  omega

theorem toNat_aluDiv (x y : Byte) : (aluDiv x y).toNat = x.toNat / y.toNat :=
  toNat_narrow_of_le (Nat.div_le_self _ _)

theorem toNat_aluMod (x y : Byte) :
    (aluMod x y).toNat = x.toNat - y.toNat * (x.toNat / y.toNat) := by
  rw [← Nat.mod_eq_sub_mul_div]
  exact toNat_narrow_of_le (Nat.mod_le _ _)

/-! ### The stages of the pseudocode -/

theorem toNat_memRead (s : State) (a : Field12) : (s.memRead a).toNat = s.abstract.mem a.toNat := rfl

/-- The ALU lines of R90 are the executor. -/
theorem executor_abstract (op : Opcode) (a : Field12) (ipc : Nat) (y : Byte) (t : State) :
    (executor op a ipc y t).abstract = t.abstract.alu ipc op.toNat a.toNat y.toNat := by
  simp only [executor, Abstract.alu, ← BitVec.toNat_inj, BitVec.reduceToNat]
  split_ifs with _ _ hle _ hdiv _ hmod _ _
  · rw [State.abstract_update, toNat_aluAdd, toNat_memRead]
  · rw [State.abstract_update, toNat_aluSub, toNat_memRead, if_pos hle]
  · rw [State.abstract_update, toNat_aluSub, toNat_memRead, if_neg hle]
  · rw [State.abstract_update, toNat_aluMul, toNat_memRead]
  · rw [State.abstract_raise, hdiv]
  · rw [State.abstract_update, toNat_aluDiv, toNat_memRead]
  · rw [State.abstract_raise, hmod]
  · rw [State.abstract_update, toNat_aluMod, toNat_memRead]
  · exact State.abstract_haltExit t y
  · rw [State.abstract_raise, BitVec.ofNat_toNat, BitVec.setWidth_eq]

/-- The RES lines of R90 are the stages before the executor. -/
theorem withOperand_abstract (op : Opcode) (a b : Field12) (s : State) :
    (withOperand a (decodeSrc b) s (executor op a s.pc)).abstract =
      s.fetched.abstract.resolved s.pc op.toNat a.toNat b.toNat := by
  have hsize : s.fetched.abstract.dataSize = s.dataSize := rfl
  have hflag : b.toNat / 2 ^ 11 % 2 = 1 ↔ b[11] = true := by
    rw [← Bool.not_eq_false, flag_clear_iff_lt]
    omega
  simp only [Abstract.resolved, hsize, hflag]
  rcases withOperand_cases a (decodeSrc b) s (executor op a s.pc) with
    ⟨ha, h⟩ | ⟨ha, addr, hb, haddr, h⟩ | ⟨ha, y, hy, h⟩
  · rw [h, if_pos ha, State.abstract_raise, BitVec.ofNat_toNat, BitVec.setWidth_eq]
  · obtain ⟨hclear, rfl⟩ := decodeSrc_eq_cell_iff.1 hb
    rw [h, if_neg (not_le.2 ha), if_neg (by simp [hclear]), if_pos haddr, State.abstract_raise,
      BitVec.ofNat_toNat, BitVec.setWidth_eq]
  rw [h, executor_abstract, if_neg (not_le.2 ha)]
  cases hbit : b[11] with
  | true =>
    rw [decodeSrc_eq_imm_of_flag_set hbit] at hy
    obtain rfl := Option.some.inj hy
    rw [if_pos rfl, BitVec.extractLsb'_toNat, Nat.shiftRight_zero]
  | false =>
    rw [decodeSrc_of_flag_clear hbit] at hy
    obtain ⟨hb, rfl⟩ := State.cell_eq_some.1 hy
    rw [if_neg (by simp), if_neg (not_le.2 hb)]
    rfl

theorem splitWord_toNat (w : Word) :
    w.toNat / 2 ^ 24 % 2 ^ 8 = (splitWord w).opcode.toNat ∧
    w.toNat / 2 ^ 12 % 2 ^ 12 = (splitWord w).a.toNat ∧
    w.toNat % 2 ^ 12 = (splitWord w).b.toNat := by
  simp [splitWord, BitVec.extractLsb'_toNat, Nat.shiftRight_eq_div_pow]

/-- Settles O13: past the end both raise InvalidPc, and below it the stages agree one by one on the
fields of the same word. -/
theorem stepRefinesPseudocode : Obligations.StepRefinesPseudocode := by
  intro s hs
  rcases Nat.lt_or_ge s.pc s.codeSize with hlt | hge
  · obtain ⟨w, hw, -⟩ := fetch_of_lt hlt
    refine ⟨_, step_fetched hs hw, ?_⟩
    obtain ⟨hop, ha, hb⟩ := splitWord_toNat w
    have hpc : ¬ s.abstract.codeSize ≤ s.abstract.pc := not_le.2 hlt
    have hcode : s.abstract.code s.abstract.pc = w.toNat := by
      simp [State.abstract, hw]
    rw [withOperand_abstract, Abstract.step, if_neg hpc]
    simp only [hcode, hop, ha, hb]
    rfl
  · exact ⟨_, step_past_end hs hge, (if_pos hge).symm⟩

end Sys2Proof.Machine
end

section
/-! Family other: one step, from the pc check to the decoded instruction. -/

namespace Sys2Proof.Machine

/-- Settles O7: once `a` is in bounds, the resolver's one check is that of the address. -/
theorem memoryFormReadsItsCell : Obligations.MemoryFormReadsItsCell := by
  intro a b s hflag ha
  rw [decodeSrc_of_flag_clear hflag]
  exact ⟨fun hb => ⟨.memoryRef b, resolve_cell ha hb, rfl, State.cell_eq_some.2 ⟨hb, rfl⟩⟩,
    fun hb => resolve_b_out ha hb⟩

/-- Settles O8: the fields of the word are the parts of the instruction it decodes to. -/
theorem stepRunsDecodedInstruction : Obligations.StepRunsDecodedInstruction := by
  intro s w i hs hw hi _
  obtain ⟨hop, ha, hb⟩ := decode_eq_ok hi
  obtain ⟨t, ht⟩ := exec_total i s
  refine ⟨?_, t, ht, (exec_eq_next_iff.1 ht).pc_eq⟩
  rw [step_fetched hs hw, exec_eq, hop, ha, hb]

/-- Settles O9: past the end the step is the raise alone; below it the increment is kept on every path. -/
theorem pcCheckBeforeEveryFetch : Obligations.PcCheckBeforeEveryFetch := by
  intro s hs
  refine ⟨fun hge => step_past_end hs hge, fun hlt => ?_⟩
  obtain ⟨t, ht⟩ := step_total hs
  exact ⟨t, ht, by rw [step_pc ht, if_pos hlt]⟩

/-- Settles O10: a step is total while Running and the stop halted otherwise. -/
theorem stepsExactlyWhileRunning : Obligations.StepsExactlyWhileRunning := by
  refine fun s => ⟨⟨step_total, fun ⟨t, ht⟩ => running_of_step_next ht⟩, step_of_halted, ?_⟩
  intro hhalted hrunning
  obtain ⟨t, ht⟩ := step_total hrunning
  cases ht.symm.trans hhalted

/-- Settles O31: `pc` never passes `code_size`, which the width holds. -/
theorem pcOfAnyWidthNeverWraps : Obligations.PcOfAnyWidthNeverWraps := by
  intro width s t hwidth hpc h
  have hnext := step_pc h
  have hle : t.pc ≤ s.codeSize := by
    rw [hnext]
    split <;> omega
  refine ⟨?_, fun hlt => ?_, fun hge => ?_⟩
  · rw [BitVec.toNat_ofNat, Nat.mod_eq_of_lt (hle.trans_lt hwidth)]
  · rw [hnext, if_pos hlt, BitVec.ofNat_add]
  · rw [hnext, if_neg (not_lt.2 hge)]

end Sys2Proof.Machine
end

section
/-! Family other: the outcome of one instruction on each of its paths (41_arithmetic.md,
42_exit_and_invalid.md, 60_exceptions.md). -/

namespace Sys2Proof.Machine

/-! ### div and mod -/

theorem aluDiv_eq_ofNat (x y : Byte) : aluDiv x y = BitVec.ofNat 8 (x.toNat / y.toNat) := by
  rw [← toNat_aluDiv, BitVec.ofNat_toNat, BitVec.setWidth_eq]

theorem aluMod_eq_ofNat (x y : Byte) :
    aluMod x y = BitVec.ofNat 8 (x.toNat - y.toNat * (x.toNat / y.toNat)) := by
  rw [← toNat_aluMod, BitVec.ofNat_toNat, BitVec.setWidth_eq]

/-- R154: with both operands in bounds and `B = 0`, div and mod fault and write nothing. -/
theorem exec_divides_by_zero {i : Instr} {s : State} {x : Byte} (hx : s.cell i.a.toNat = some x)
    (hy : operandValue s i.b = some 0#8) (hop : i.opcode = 0x03#8 ∨ i.opcode = 0x04#8) :
    ∃ t, exec i s = .next t ∧ RaisedAfterFetch s t (.divisionByZero s.pc i.opcode) :=
  ⟨_, exec_eq_next_iff.2 (.dividesByZero (State.cell_eq_some.1 hx).1 hy hop),
    raisedAfterFetch_raise _ _⟩

/-- Settles O18: the effect is the store of the quotient, or the division by zero. -/
theorem divStoresQuotientOrFaults : Obligations.DivStoresQuotientOrFaults := by
  intro a b s x y hx hy
  refine ⟨toNat_encode (.div a b), fun hne => ?_, ?_⟩
  · rw [← aluDiv_eq_ofNat]
    exact exec_stores (i := .div a b) (f := (aluDiv · y)) hx hy fun _ => if_neg hne
  · rintro rfl
    exact exec_divides_by_zero (i := .div a b) hx hy (.inl rfl)

/-- Settles O19: the effect is the store of the remainder, or the division by zero. -/
theorem modStoresRemainderOrFaults : Obligations.ModStoresRemainderOrFaults := by
  intro a b s x y hx hy
  refine ⟨toNat_encode (.mod a b), fun hne => ?_, ?_⟩
  · rw [← aluMod_eq_ofNat]
    exact exec_stores (i := .mod a b) (f := (aluMod · y)) hx hy fun _ => if_neg hne
  · rintro rfl
    exact exec_divides_by_zero (i := .mod a b) hx hy (.inr rfl)

theorem toNat_pos_of_ne_zero {y : Byte} (h : y ≠ 0#8) : 0 < y.toNat := by
  simpa [Nat.pos_iff_ne_zero, ← BitVec.toNat_inj] using h

/-- Settles O21: the two stored bytes are the quotient and the remainder of the natural numbers. -/
theorem quotientAndRemainderRecompose : Obligations.QuotientAndRemainderRecompose := by
  intro a b s x y hx hy hne
  obtain ⟨-, hdiv, -⟩ := divStoresQuotientOrFaults a b s x y hx hy
  obtain ⟨-, hmod, -⟩ := modStoresRemainderOrFaults a b s x y hx hy
  obtain ⟨t, ht, -, -, -, -, -, -, hq, -⟩ := hdiv hne
  obtain ⟨u, hu, -, -, -, -, -, -, hr, -⟩ := hmod hne
  refine ⟨t, u, _, _, ht, hu, hq, hr, ?_⟩
  rw [← aluDiv_eq_ofNat, ← aluMod_eq_ofNat, toNat_aluDiv, toNat_aluMod, ← Nat.mod_eq_sub_mul_div]
  exact ⟨Nat.div_add_mod' _ _, Nat.mod_lt _ (toNat_pos_of_ne_zero hne)⟩

/-! ### One cell as both operands -/

/-- Settles O20: the general results with `y = x`. -/
theorem sameCellTwiceReadsOldValue : Obligations.SameCellTwiceReadsOldValue := by
  intro a s x hx
  obtain ⟨-, hadd⟩ := addStoresSumModulo256 a (.cell a) s x x hx hx
  obtain ⟨-, hsub⟩ := subStoresDifferenceModulo256 a (.cell a) s x x hx hx
  obtain ⟨-, hmul⟩ := mulStoresLowByteOfProduct a (.cell a) s x x hx hx
  obtain ⟨-, hdiv, hdivZero⟩ := divStoresQuotientOrFaults a (.cell a) s x x hx hx
  obtain ⟨-, hmod, hmodZero⟩ := modStoresRemainderOrFaults a (.cell a) s x x hx hx
  rw [← Nat.two_mul] at hadd
  rw [if_pos le_rfl, Nat.sub_self] at hsub
  refine ⟨hadd, hsub, hmul, fun hne => ?_, fun hzero => ⟨hdivZero hzero, hmodZero hzero⟩⟩
  have hself : x.toNat / x.toNat = 1 := Nat.div_self (toNat_pos_of_ne_zero hne)
  rw [hself] at hdiv
  rw [hself, Nat.mul_one, Nat.sub_self] at hmod
  exact ⟨hdiv hne, hmod hne⟩

/-! ### The identities of 30_encoding.md section 6 -/

theorem State.update_eq_self {s : State} {a : Field12} {f : Byte → Byte} (hmem : s.mem.wf)
    (hf : ∀ x, f x = x) : s.update a f = s := by
  rw [State.update, hf, State.memWrite, State.memRead, Memory.write_read_self hmem]

/-- An instruction whose executor writes back the old value of cell `a` only moves `pc` on. -/
theorem exec_eq_fetched {i : Instr} {s : State} {y : Byte} {f : Byte → Byte} (hmem : s.mem.wf)
    (ha : i.a.toNat < s.dataSize) (hy : operandValue s i.b = some y)
    (hf : ∀ t, executor i.opcode i.a s.pc y t = t.update i.a f) (hself : ∀ x, f x = x) :
    exec i s = .next s.fetched := by
  rw [exec_eq, withOperand_value _ ha hy, hf, State.update_eq_self (s := s.fetched) hmem hself]

theorem aluAdd_zero (x : Byte) : aluAdd x 0 = x := by
  apply BitVec.eq_of_toNat_eq
  rw [toNat_aluAdd]
  exact Nat.mod_eq_of_lt x.isLt

theorem aluSub_zero (x : Byte) : aluSub x 0 = x := by
  apply BitVec.eq_of_toNat_eq
  rw [toNat_aluSub]
  exact if_pos (Nat.zero_le _)

theorem aluMul_one (x : Byte) : aluMul x 1 = x := by
  apply BitVec.eq_of_toNat_eq
  rw [toNat_aluMul]
  simpa using Nat.mod_eq_of_lt x.isLt

theorem aluDiv_one (x : Byte) : aluDiv x 1 = x := by
  apply BitVec.eq_of_toNat_eq
  rw [toNat_aluDiv]
  exact Nat.div_one _

/-- Settles O22: writing back the old value leaves a canonical memory as it was, and both clearing
instructions store a result of 0. -/
theorem noOpAndClearIdentities : Obligations.NoOpAndClearIdentities := by
  intro a hi s hmem ha
  have hx : s.cell a.toNat = some (s.memRead a) := State.cell_eq_some.2 ⟨ha, rfl⟩
  refine ⟨?add, ?sub, ?mul, ?div, ?clearByMul, ?clearByMod⟩
  case add => exact exec_eq_fetched (i := .add a (.imm hi 0)) hmem ha rfl (fun _ => rfl) aluAdd_zero
  case sub => exact exec_eq_fetched (i := .sub a (.imm hi 0)) hmem ha rfl (fun _ => rfl) aluSub_zero
  case mul => exact exec_eq_fetched (i := .mul a (.imm hi 1)) hmem ha rfl (fun _ => rfl) aluMul_one
  case div => exact exec_eq_fetched (i := .div a (.imm hi 1)) hmem ha rfl (fun _ => rfl) aluDiv_one
  case clearByMul =>
    obtain ⟨-, hstores⟩ := mulStoresLowByteOfProduct a (.imm hi 0) s _ 0 hx rfl
    simpa using hstores
  case clearByMod =>
    obtain ⟨-, hstores, -⟩ := modStoresRemainderOrFaults a (.imm hi 1) s _ 1 hx rfl
    simpa using hstores

/-! ### exit, undefined opcodes and operands out of bounds -/

/-- Settles O23: exit is the one effect of opcode 0x0F with its operands in bounds. -/
theorem exitHaltsWithOperandValue : Obligations.ExitHaltsWithOperandValue :=
  fun a b _ _ ha hy => ⟨toNat_encode (.exit a b), exec_eq_next_iff.2 (.exits ha hy rfl)⟩

/-- Settles O24: the effect of an undefined opcode once both operands have resolved. -/
theorem undefinedOpcodeFaults : Obligations.UndefinedOpcodeFaults := by
  intro s w y hs hw hop ha hy
  have heff : WordEffect w s _ := .undefined ha hy ((not_mem_iff_undefined _).1 hop)
  exact ⟨_, step_eq_next_of_wordEffect hs hw heff, raisedAfterFetch_raise _ _⟩

/-- Settles O25: `a` is checked before anything else, for every opcode. -/
theorem outOfBoundsAFaultsForEveryWord : Obligations.OutOfBoundsAFaultsForEveryWord := by
  refine ⟨fun i s ha => ⟨_, exec_eq_next_iff.2 (.aOut ha), raisedAfterFetch_raise _ _⟩,
    fun s w hs hw ha => ?_⟩
  have heff : WordEffect w s _ := .aOut ha
  exact ⟨_, step_eq_next_of_wordEffect hs hw heff, raisedAfterFetch_raise _ _⟩

/-- Settles O26: a memory-form `b` is checked next, for every opcode. -/
theorem outOfBoundsBFaultsForEveryWord : Obligations.OutOfBoundsBFaultsForEveryWord := by
  refine ⟨fun i addr s ha hb haddr => ⟨_, exec_eq_next_iff.2 (.bOut ha hb haddr),
    raisedAfterFetch_raise _ _⟩, fun s w hs hw ha hflag hb => ?_⟩
  have heff : WordEffect w s _ := .bOut ha (decodeSrc_of_flag_clear hflag) hb
  exact ⟨_, step_eq_next_of_wordEffect hs hw heff, raisedAfterFetch_raise _ _⟩

end Sys2Proof.Machine
end

section
/-! Family other: rules about every step: the first failed check, frames, status, reach and
dependence on memory. -/

namespace Sys2Proof.Machine

/-! ### Values of the `b` field -/

/-- A `b` with a value is no memory form out of bounds. -/
theorem operandValue_not_out {s : State} {b : Field12} {y : Byte}
    (h : operandValue s (decodeSrc b) = some y) : ¬(b[11] = false ∧ s.dataSize ≤ b.toNat) := by
  rintro ⟨hflag, hout⟩
  rw [decodeSrc_of_flag_clear hflag] at h
  exact absurd (State.cell_eq_some.1 h).1 (not_lt.2 hout)

/-- An operand with a value that is no divisor of 0 passes the last check. -/
theorem not_divides_by_zero {op : Opcode} {b : Src} {s : State} {y : Byte}
    (hy : operandValue s b = some y) (hdiv : ¬((op = 0x03#8 ∨ op = 0x04#8) ∧ y = 0#8)) :
    ¬((op = 0x03#8 ∨ op = 0x04#8) ∧ operandValue s b = some 0#8) :=
  fun ⟨hop, hzero⟩ => hdiv ⟨hop, Option.some.inj (hy.symm.trans hzero)⟩

theorem codeRead_of_ge {s : State} {i : Nat} (h : s.codeSize ≤ i) : s.codeRead i = none :=
  List.getElem?_eq_none h

theorem definedOpcode_of_arithmetic {op : Opcode} (h : op.toNat ≤ 4) : definedOpcode op = true := by
  rcases arithmetic_opcode_cases h with rfl | rfl | rfl | rfl | rfl <;> rfl

theorem definedOpcode_of_divides {op : Opcode} (h : op = 0x03#8 ∨ op = 0x04#8) :
    definedOpcode op = true := by
  rcases h with rfl | rfl <;> rfl

/-! ### The first failed check -/

/-- Settles O12: each effect carries the checks that passed before the one that failed. -/
theorem firstFailedCheckIsRecorded : Obligations.FirstFailedCheckIsRecorded := by
  intro s t _ hfault h
  obtain ⟨-, ⟨hpast, rfl⟩ | ⟨w, hw, heff⟩⟩ := step_effect h
  · rw [codeRead_of_ge hpast, State.raise_fault]
  rw [hw]
  simp only [not_mem_iff_undefined, ← flag_clear_iff_lt]
  cases heff with
  | aOut ha => rw [State.raise_fault, if_pos ha]
  | bOut ha hb haddr =>
    obtain ⟨hflag, rfl⟩ := decodeSrc_eq_cell_iff.1 hb
    rw [State.raise_fault, if_neg (not_le.2 ha), if_pos ⟨hflag, haddr⟩]
  | undefined ha hy hop =>
    rw [State.raise_fault, if_neg (not_le.2 ha), if_neg (operandValue_not_out hy), if_pos hop]
  | dividesByZero ha hy hop =>
    rw [State.raise_fault, if_neg (not_le.2 ha), if_neg (operandValue_not_out hy),
      if_neg (by simp [definedOpcode_of_divides hop]), if_pos ⟨hop, hy⟩]
  | exits ha hy hop =>
    rw [State.haltExit_fault, State.fetched_fault, hfault, if_neg (not_le.2 ha),
      if_neg (operandValue_not_out hy), hop, if_neg (by decide), if_neg (by simp)]
  | stores ha hy hop hdiv =>
    rw [State.update_fault, State.fetched_fault, hfault, if_neg (not_le.2 ha),
      if_neg (operandValue_not_out hy), if_neg (by simp [definedOpcode_of_arithmetic hop]),
      if_neg (not_divides_by_zero hy hdiv)]

/-! ### Frames -/

section
variable {op : Opcode} {a : Field12} {b : Src} {s t : State}

theorem Effect.exit_frame (h : Effect 0x0F#8 a b s t) :
    (∀ addr, t.cell addr = s.cell addr) ∧
    (t.status = .exited ∧ t.fault = s.fault ∨ t.status = .faulted ∧ t.exitCode = s.exitCode) := by
  cases h with
  | exits => exact ⟨fun _ => rfl, .inl ⟨rfl, rfl⟩⟩
  | stores _ _ hop => exact absurd hop (by decide)
  | _ => exact ⟨fun _ => rfl, .inr ⟨rfl, rfl⟩⟩

theorem Effect.frame_of_ne_exit (h : Effect op a b s t) (hop : op ≠ 0x0F#8) :
    t.exitCode = s.exitCode ∧
    (t.status = s.status ∧ t.fault = s.fault ∨
      t.status = .faulted ∧ ∀ addr, t.cell addr = s.cell addr) := by
  cases h with
  | exits _ _ hexit => exact absurd hexit hop
  | stores => exact ⟨rfl, .inl ⟨rfl, rfl⟩⟩
  | _ => exact ⟨rfl, .inr ⟨rfl, fun _ => rfl⟩⟩

end

/-- Settles O27: the frame all effects share, then those of exit and of the other five. -/
theorem instructionFrame : Obligations.InstructionFrame := by
  intro i s t h
  have heff := exec_eq_next_iff.1 h
  exact ⟨heff.pc_eq, heff.code_eq, heff.dataSize_eq, fun _ hne => heff.cell_eq hne,
    fun hop => (hop ▸ heff).exit_frame.1, fun hop => (hop ▸ heff).exit_frame.2,
    fun hop => (heff.frame_of_ne_exit hop).1, fun hop => (heff.frame_of_ne_exit hop).2⟩

/-! ### Status -/

/-- R150 to R154 for a fetched word: it faults exactly if one of the four later checks fails. -/
theorem WordEffect.faulted_iff {w : Word} {s t : State} (h : WordEffect w s t)
    (hs : s.status = .running) :
    t.status = .faulted ↔ s.dataSize ≤ (splitWord w).a.toNat ∨
      ((splitWord w).b[11] = false ∧ s.dataSize ≤ (splitWord w).b.toNat) ∨
      definedOpcode (splitWord w).opcode = false ∨
      (((splitWord w).opcode = 0x03#8 ∨ (splitWord w).opcode = 0x04#8) ∧
        operandValue s (decodeSrc (splitWord w).b) = some 0#8) := by
  cases h with
  | aOut ha => simp [ha]
  | bOut ha hb haddr =>
    obtain ⟨hflag, rfl⟩ := decodeSrc_eq_cell_iff.1 hb
    simp [hflag, haddr]
  | undefined ha hy hop => simp [hop]
  | dividesByZero ha hy hop => simp [hop, hy]
  | exits ha hy hop =>
    simp [ha, hop, definedOpcode, operandValue_not_out hy]
  | stores ha hy hop hdiv =>
    simp [hs, ha, operandValue_not_out hy, definedOpcode_of_arithmetic hop, not_divides_by_zero hy hdiv]

/-- R120 for a fetched word: it exits exactly if it is an exit whose operands are in bounds. -/
theorem WordEffect.exited_iff {w : Word} {s t : State} (h : WordEffect w s t)
    (hs : s.status = .running) :
    t.status = .exited ↔ ∃ y, (splitWord w).opcode = 0x0F#8 ∧ (splitWord w).a.toNat < s.dataSize ∧
      operandValue s (decodeSrc (splitWord w).b) = some y ∧ t.exitCode = y := by
  constructor
  · intro ht
    cases h with
    | exits ha hy hop => exact ⟨_, hop, ha, hy, rfl⟩
    | stores => cases hs.symm.trans ht
    | _ => cases ht
  · rintro ⟨y, hop, ha, hy, -⟩
    have hexits : WordEffect w s (s.fetched.haltExit y) := .exits ha hy hop
    rw [← effect_iff.1 h, effect_iff.1 hexits, State.haltExit_status]

theorem WordEffect.exitCode_eq {w : Word} {s t : State} (h : WordEffect w s t)
    (ht : t.status ≠ .exited) : t.exitCode = s.exitCode := by
  cases h with
  | exits => exact absurd rfl ht
  | _ => rfl

theorem WordEffect.fault_eq {w : Word} {s t : State} (h : WordEffect w s t)
    (ht : t.status ≠ .faulted) : t.fault = s.fault := by
  cases h with
  | exits | stores => rfl
  | _ => exact absurd rfl ht

theorem WordEffect.fault_of_faulted {w : Word} {s t : State} (h : WordEffect w s t)
    (hs : s.status = .running) (ht : t.status = .faulted) : ∃ r, t.fault = some r := by
  cases h with
  | exits => cases ht
  | stores => cases hs.symm.trans ht
  | _ => exact ⟨_, rfl⟩

/-- Settles O29: past the end the step faults, and below it the fetched word decides. -/
theorem statusTransitions : Obligations.StatusTransitions := by
  intro s t h
  obtain ⟨hs, ⟨hpast, rfl⟩ | ⟨w, hw, heff⟩⟩ := step_effect h
  · simp [hs, hpast, codeRead_of_ge hpast]
  · have hbelow : ¬ s.codeSize ≤ s.pc := not_le.2 (codeRead_lt hw)
    refine ⟨hs, ?exited, ?faulted, heff.exitCode_eq, heff.fault_eq, heff.fault_of_faulted hs⟩
    case exited => simpa [hw] using heff.exited_iff hs
    case faulted =>
      simp only [hw, not_mem_iff_undefined, hbelow, false_or, Option.some.injEq, exists_eq_left']
      exact heff.faulted_iff hs

/-! ### The reach of the operand fields -/

/-- Settles O30: a memory-form `b` is below 2048 and `a` below 4096 by their widths, and no cell but
`a` changes. -/
theorem reachOfTheOperandFields : Obligations.ReachOfTheOperandFields := by
  refine ⟨fun w i addr hi hb => ?_, fun s t addr h haddr => ?_, fun s t ipc addr hfault hsize h => ?_,
    fun s t ipc addr hfault hsize h => ?_⟩
  · obtain ⟨-, -, hsrc⟩ := decode_eq_ok hi
    obtain ⟨hflag, rfl⟩ := decodeSrc_eq_cell_iff.1 (hsrc.symm.trans hb)
    exact (flag_clear_iff_lt _).1 hflag
  · obtain ⟨-, ⟨-, rfl⟩ | ⟨w, -, heff⟩⟩ := step_effect h
    · rfl
    · have ha := (splitWord w).a.isLt
      exact heff.cell_eq (by omega)
  · obtain ⟨-, ⟨-, rfl⟩ | ⟨w, -, heff⟩⟩ := step_effect h
    · simp
    cases heff with
    | aOut ha =>
      have hlt := (splitWord w).a.isLt
      omega
    | _ => simp [hfault]
  · obtain ⟨-, ⟨-, rfl⟩ | ⟨w, -, heff⟩⟩ := step_effect h
    · simp
    cases heff with
    | bOut ha hb hout =>
      obtain ⟨hflag, rfl⟩ := decodeSrc_eq_cell_iff.1 hb
      have hlt := (flag_clear_iff_lt _).1 hflag
      omega
    | _ => simp [hfault]

/-! ### What a step depends on -/

/-- Two states that differ in memory at most, and not in the cell at `addr`. -/
structure AgreeAt (addr : Nat) (s s' : State) : Prop where
  pc : s'.pc = s.pc
  code : s'.code = s.code
  dataSize : s'.dataSize = s.dataSize
  status : s'.status = s.status
  exitCode : s'.exitCode = s.exitCode
  fault : s'.fault = s.fault
  cell : s'.cell addr = s.cell addr

theorem AgreeAt.fetched {addr : Nat} {s s' : State} (h : AgreeAt addr s s') :
    AgreeAt addr s.fetched s'.fetched :=
  { h with pc := congrArg (· + 1) h.pc }

/-- The record of a fault raised after the fetch is the same, as it is made from the same `pc`. -/
theorem AgreeAt.fetched_raise {addr : Nat} {s s' : State} (h : AgreeAt addr s s')
    (r : Nat → FaultRecord) :
    AgreeAt addr (s.fetched.raise (r s.pc)) (s'.fetched.raise (r s'.pc)) :=
  { h.fetched with status := rfl, fault := by rw [h.pc]; rfl }

theorem AgreeAt.haltExit {addr : Nat} {s s' : State} (h : AgreeAt addr s s') (y : Byte) :
    AgreeAt addr (s.haltExit y) (s'.haltExit y) :=
  { h with status := rfl, exitCode := rfl }

theorem AgreeAt.update {a : Field12} {s s' : State} (h : AgreeAt a.toNat s s') (f : Byte → Byte) :
    AgreeAt a.toNat (s.update a f) (s'.update a f) :=
  { h with cell := by rw [State.cell_update_self, State.cell_update_self, h.cell] }

/-- States that agree at `a` and on the value of `b` take the same effect. -/
theorem Effect.agree {op : Opcode} {a : Field12} {b : Src} {s s' t : State} (h : Effect op a b s t)
    (hagree : AgreeAt a.toNat s s') (hb : operandValue s' b = operandValue s b) :
    ∃ t', Effect op a b s' t' ∧ AgreeAt a.toNat t t' := by
  have hsize := hagree.dataSize
  cases h with
  | aOut ha => exact ⟨_, .aOut (hsize ▸ ha), hagree.fetched_raise (.invalidMemoryAccess · .a a)⟩
  | bOut ha hcell hout =>
    exact ⟨_, .bOut (hsize ▸ ha) hcell (hsize ▸ hout),
      hagree.fetched_raise (.invalidMemoryAccess · .b _)⟩
  | undefined ha hy hop =>
    exact ⟨_, .undefined (hsize ▸ ha) (hb.trans hy) hop, hagree.fetched_raise (.invalidInstruction · op)⟩
  | dividesByZero ha hy hop =>
    exact ⟨_, .dividesByZero (hsize ▸ ha) (hb.trans hy) hop, hagree.fetched_raise (.divisionByZero · op)⟩
  | exits ha hy hop => exact ⟨_, .exits (hsize ▸ ha) (hb.trans hy) hop, hagree.fetched.haltExit _⟩
  | stores ha hy hop hdiv =>
    exact ⟨_, .stores (hsize ▸ ha) (hb.trans hy) hop hdiv, hagree.fetched.update _⟩

theorem operandValue_decodeSrc_congr {s s' : State} {b : Field12}
    (h : b[11] = false → s'.cell b.toNat = s.cell b.toNat) :
    operandValue s' (decodeSrc b) = operandValue s (decodeSrc b) := by
  cases hflag : b[11] with
  | false =>
    rw [decodeSrc_of_flag_clear hflag]
    exact h hflag
  | true =>
    rw [decodeSrc_of_flag_set hflag]
    rfl

/-- Settles O32: both states take the same effect, and each effect keeps the agreement. -/
theorem stepDependsOnNamedCellsAlone : Obligations.StepDependsOnNamedCellsAlone := by
  intro s s' w hs hs' hpc hcode hsize hexit hfault hw ha hb
  have hagree : AgreeAt (splitWord w).a.toNat s s' :=
    ⟨hpc, hcode, hsize, hs'.trans hs.symm, hexit, hfault, ha⟩
  have heff : WordEffect w s _ := effect_withOperand _ _ _ s
  obtain ⟨t', heff', hagree'⟩ := heff.agree hagree (operandValue_decodeSrc_congr hb)
  have hw' : s'.codeRead s'.pc = some w := by rw [hpc, State.codeRead, hcode]; exact hw
  exact ⟨_, t', step_eq_next_of_wordEffect hs hw heff, step_eq_next_of_wordEffect hs' hw' heff',
    hagree'.pc, hagree'.status, hagree'.exitCode, hagree'.fault, hagree'.cell⟩

end Sys2Proof.Machine
end

section
/-! Family other: reset, the result outputs and the transactions of a step (49_interfaces.md,
70_reset_and_hazards.md). -/

namespace Sys2Proof.Machine

/-! ### Reset and placing -/

theorem assertReset_of_halted {s : State} (hs : s.status ≠ .running) :
    assertReset s = .next { s with pc := 0, status := .running, exitCode := 0, fault := none } :=
  assertReset_eq_next.2 ⟨hs, rfl⟩

theorem assertReset_of_running {s : State} (hs : s.status = .running) :
    assertReset s = .refused .resetWhileRunning := by
  rw [assertReset, hs]

theorem place_of_running {s : State} (hs : s.status = .running) (code : List Word) (data : List Byte) :
    place code data s = .refused .environmentDuringRun := by
  rw [place, hs]

theorem place_of_halted {s : State} (hs : s.status ≠ .running) (code : List Word) (data : List Byte) :
    place code data s =
      .next { s with code := code, mem := Memory.ofBytesFrom 0 data, dataSize := data.length } := by
  cases hstatus : s.status with
  | running => exact absurd hstatus hs
  | exited => rw [place, hstatus]
  | faulted => rw [place, hstatus]

/-- Settles O33: placing and reset together set every field of the state to that of a loaded one. -/
theorem resetLeavesStartOfRun : Obligations.ResetLeavesStartOfRun := by
  refine ⟨⟨rfl, rfl, rfl, rfl⟩, fun s hs => assertReset_of_halted hs,
    fun code data s hs => ⟨_, place_of_halted hs code data, ?_⟩,
    fun code data s hs => ⟨assertReset_of_running hs, place_of_running hs code data⟩⟩
  exact assertReset_of_halted hs

/-! ### The result outputs -/

theorem shownFault_of_faulted {s : State} (hs : s.status = .faulted) : shownFault s = s.fault := by
  rw [shownFault, hs]

theorem shownFault_of_not_faulted {s : State} (hs : s.status ≠ .faulted) : shownFault s = none := by
  cases hstatus : s.status with
  | faulted => exact absurd hstatus hs
  | running => rw [shownFault, hstatus]
  | exited => rw [shownFault, hstatus]

theorem exitCodePort_of_exited {s : State} (hs : s.status = .exited) : exitCodePort s = s.exitCode := by
  rw [exitCodePort, hs]

theorem exitCodePort_of_not_exited {s : State} (hs : s.status ≠ .exited) : exitCodePort s = 0 := by
  cases hstatus : s.status with
  | exited => exact absurd hstatus hs
  | running => rw [exitCodePort, hstatus]
  | faulted => rw [exitCodePort, hstatus]

/-- The status of a code of R26. -/
def Status.ofCode (code : BitVec 2) : Status :=
  if code = 0 then .running else if code = 1 then .exited else .faulted

theorem ofCode_statusPort (s : State) : Status.ofCode (statusPort s) = s.status := by
  cases hs : s.status <;> rw [statusPort, hs] <;> rfl

/-- The record read back from the five fault outputs, by the tags of R150. -/
def FaultRecord.ofOutputs (tag : BitVec 2) (pc : Nat) (field : BitVec 1) (addr : Field12)
    (op : Opcode) : FaultRecord :=
  if tag = 0 then .invalidPc pc
  else if tag = 1 then .invalidMemoryAccess pc (if field = 0 then .a else .b) addr
  else if tag = 2 then .invalidInstruction pc op
  else .divisionByZero pc op

theorem ofOutputs_of_shownFault {s : State} {r : FaultRecord} (h : shownFault s = some r) :
    FaultRecord.ofOutputs (faultTagPort s) (faultPcPort s) (faultFieldPort s) (faultAddrPort s)
      (faultOpcodePort s) = r := by
  cases r with
  | invalidMemoryAccess ipc field addr =>
    cases field <;>
      simp [FaultRecord.ofOutputs, faultTagPort, faultPcPort, faultFieldPort, faultAddrPort, h]
  | _ => simp [FaultRecord.ofOutputs, faultTagPort, faultPcPort, faultOpcodePort, h]

/-- A faulted state whose result registers agree with its status shows the record of its outputs. -/
theorem result_of_faulted {s : State} (hok : s.resultOk = true) (hs : s.status = .faulted) :
    s.result = some (.faulted (FaultRecord.ofOutputs (faultTagPort s) (faultPcPort s)
      (faultFieldPort s) (faultAddrPort s) (faultOpcodePort s))) := by
  cases hfault : s.fault with
  | none => simp [State.resultOk, hs, hfault] at hok
  | some r =>
    rw [ofOutputs_of_shownFault ((shownFault_of_faulted hs).trans hfault)]
    simp [State.result, hs, hfault]

/-- Settles O38: the record and the status are read back from the outputs; each output is its field. -/
theorem resultOutputsShowTheResult : Obligations.ResultOutputsShowTheResult := by
  refine ⟨?determine, ?codes, ?pc, ?access, ?instruction, ?zero, ?notExited, ?notFaulted⟩
  case determine =>
    intro s s' hok hok' hstatus hexit htag hpc hfield haddr hop
    have hsame : s'.status = s.status := by rw [← ofCode_statusPort s, hstatus, ofCode_statusPort]
    cases hs : s.status with
    | running => rw [State.result, State.result, hsame, hs]
    | exited =>
      have hs' := hsame.trans hs
      rw [exitCodePort_of_exited hs, exitCodePort_of_exited hs'] at hexit
      rw [State.result, State.result, hs, hs', hexit]
    | faulted =>
      rw [result_of_faulted hok hs, result_of_faulted hok' (hsame.trans hs), htag, hpc, hfield, haddr,
        hop]
  case codes =>
    intro s
    refine ⟨rfl, fun hs => ?_, fun hs => ⟨?_, exitCodePort_of_exited hs⟩, fun hs => ?_⟩ <;>
      rw [statusPort, hs]
  case pc =>
    intro s pc hs hfault
    simp [faultTagPort, faultPcPort, faultFieldPort, faultAddrPort, faultOpcodePort,
      shownFault_of_faulted hs, hfault]
  case access =>
    intro s ipc field addr hs hfault
    cases field <;> simp [faultTagPort, faultPcPort, faultFieldPort, faultAddrPort, faultOpcodePort,
      shownFault_of_faulted hs, hfault]
  case instruction =>
    intro s ipc op hs hfault
    simp [faultTagPort, faultPcPort, faultFieldPort, faultAddrPort, faultOpcodePort,
      shownFault_of_faulted hs, hfault]
  case zero =>
    intro s ipc op hs hfault
    simp [faultTagPort, faultPcPort, faultFieldPort, faultAddrPort, faultOpcodePort,
      shownFault_of_faulted hs, hfault]
  case notExited => exact fun s hs => exitCodePort_of_not_exited hs
  case notFaulted =>
    intro s hs
    simp [faultTagPort, faultPcPort, faultFieldPort, faultAddrPort, faultOpcodePort,
      shownFault_of_not_faulted hs]

/-! ### Transactions -/

theorem executorTransactions_stores {i : Instr} {y : Byte} (hop : i.opcode.toNat ≤ 4)
    (hdiv : ¬((i.opcode = 0x03#8 ∨ i.opcode = 0x04#8) ∧ y = 0#8)) (s : State) :
    executorTransactions s i y = updateTransactions s i.a (storedValue i.opcode y) := by
  cases i with
  | add | sub | mul => rfl
  | div | mod =>
    have hy : y ≠ 0#8 := fun hy => hdiv ⟨by simp [Instr.opcode], hy⟩
    exact if_neg hy
  | exit => exact absurd hop (by simp [Instr.opcode])

theorem executorTransactions_divides_by_zero {i : Instr} (hop : i.opcode = 0x03#8 ∨ i.opcode = 0x04#8)
    (s : State) : executorTransactions s i 0#8 = [] := by
  cases i with
  | div | mod => rfl
  | _ => simp [Instr.opcode] at hop

theorem executorTransactions_exit {i : Instr} (hop : i.opcode = 0x0F#8) (s : State) (y : Byte) :
    executorTransactions s i y = [] := by
  cases i with
  | exit => rfl
  | _ => simp [Instr.opcode] at hop

end Sys2Proof.Machine
end

section
/-! Family other: the transactions of a step account for it (49_interfaces.md R139). -/

namespace Sys2Proof.Machine

/-! ### The data transactions of a fetched word -/

theorem transactions_past_end {s : State} (hs : s.status = .running) (h : s.codeSize ≤ s.pc) :
    transactions s = [] := by
  simp only [transactions, hs, fetch_of_ge h]

theorem transactions_fetched {s : State} {w : Word} (hs : s.status = .running)
    (hw : s.codeRead s.pc = some w) :
    transactions s = .codeRead s.pc w :: dataTransactions s w := by
  simp only [transactions, hs, fetch_of_some hw]

theorem dataTransactions_undefined {s : State} {w : Word}
    (h : definedOpcode (splitWord w).opcode = false) : dataTransactions s w = [] := by
  obtain ⟨r, hr⟩ := (decode_rejects_iff w).2 h
  simp only [dataTransactions, hr]

theorem dataTransactions_unresolved {s : State} {w : Word} {r : FaultRecord}
    (h : resolve (splitWord w).a (decodeSrc (splitWord w).b) s = .error r) :
    dataTransactions s w = [] := by
  rcases decode_cases w with ⟨i, hi, -, ha, hb⟩ | ⟨hop, -⟩
  · simp only [dataTransactions, hi, ha, hb, h]
  · exact dataTransactions_undefined hop

/-- The data read of an operand as written: its cell in memory form, none for an immediate. -/
def srcReads (s : State) : Src → List Transaction
  | .cell addr => [.dataRead addr (s.memRead addr)]
  | .imm _ _ => []

theorem resolve_of_value {a : Field12} {b : Src} {s : State} {y : Byte} (ha : a.toNat < s.dataSize)
    (hy : operandValue s b = some y) :
    ∃ o, resolve a b s = .ok o ∧ o.value s = y ∧ operandReads s o = srcReads s b := by
  cases b with
  | imm ignored v => exact ⟨.immediate v, resolve_imm ha, Option.some.inj hy, rfl⟩
  | cell addr =>
    obtain ⟨haddr, hread⟩ := State.cell_eq_some.1 hy
    exact ⟨.memoryRef addr, resolve_cell ha haddr, hread, rfl⟩

theorem dataTransactions_defined {s : State} {w : Word} {y : Byte}
    (hop : definedOpcode (splitWord w).opcode = true) (ha : (splitWord w).a.toNat < s.dataSize)
    (hy : operandValue s (decodeSrc (splitWord w).b) = some y) :
    ∃ i : Instr, i.opcode = (splitWord w).opcode ∧ i.a = (splitWord w).a ∧
      dataTransactions s w = srcReads s (decodeSrc (splitWord w).b) ++ executorTransactions s i y := by
  rcases decode_cases w with ⟨i, hi, hiop, hia, hib⟩ | ⟨hundefined, -⟩
  · obtain ⟨o, ho, hvalue, hreads⟩ := resolve_of_value ha hy
    refine ⟨i, hiop, hia, ?_⟩
    simp only [dataTransactions, hi, hia, hib, ho, hvalue, hreads]
  · simp [hop] at hundefined

/-! ### The two parts of the list -/

/-- The read of cell `b` that R139 (2) lists for a word, as in `AccountedFor`. -/
def ReadOfB (s : State) (w : Word) (readB : List Transaction) : Prop :=
  if (splitWord w).b[11] = false ∧ (splitWord w).a.toNat < s.dataSize ∧
      (splitWord w).b.toNat < s.dataSize ∧ definedOpcode (splitWord w).opcode = true then
    ∃ y, s.cell (splitWord w).b.toNat = some y ∧ readB = [.dataRead (splitWord w).b y]
  else readB = []

/-- The read and the write of cell `a` that R139 (3) and (4) list, as in `AccountedFor`. -/
def UpdateOfA (s t : State) (w : Word) (updateA : List Transaction) : Prop :=
  if t.status = .running then
    (splitWord w).opcode.toNat ≤ 4 ∧ ∃ x r, s.cell (splitWord w).a.toNat = some x ∧
      t.cell (splitWord w).a.toNat = some r ∧
      updateA = [.dataRead (splitWord w).a x, .dataWrite (splitWord w).a r]
  else updateA = []

theorem accountedFor_of_parts {s t : State} {w : Word} {readB updateA : List Transaction}
    (hw : s.codeRead s.pc = some w) (hb : ReadOfB s w readB) (ha : UpdateOfA s t w updateA)
    (hcells : ∀ addr, (∀ a v, .dataWrite a v ∈ Transaction.codeRead s.pc w :: (readB ++ updateA) →
      a.toNat ≠ addr) → t.cell addr = s.cell addr) :
    AccountedFor s t (.codeRead s.pc w :: (readB ++ updateA)) := by
  refine ⟨hcells, ?_⟩
  rw [hw]
  exact ⟨readB, updateA, rfl, hb, ha⟩

theorem readOfB_defined {s : State} {w : Word} {y : Byte}
    (hop : definedOpcode (splitWord w).opcode = true) (ha : (splitWord w).a.toNat < s.dataSize)
    (hy : operandValue s (decodeSrc (splitWord w).b) = some y) :
    ReadOfB s w (srcReads s (decodeSrc (splitWord w).b)) := by
  cases hflag : (splitWord w).b[11] with
  | true =>
    rw [ReadOfB, if_neg (by simp [hflag]), decodeSrc_of_flag_set hflag, srcReads]
  | false =>
    rw [decodeSrc_of_flag_clear hflag] at hy ⊢
    obtain ⟨hb, -⟩ := State.cell_eq_some.1 hy
    rw [ReadOfB, if_pos ⟨hflag, ha, hb, hop⟩]
    exact ⟨_, State.cell_eq_some.2 ⟨hb, rfl⟩, rfl⟩

theorem readOfB_undefined {s : State} {w : Word} (h : definedOpcode (splitWord w).opcode = false) :
    ReadOfB s w [] := by
  rw [ReadOfB, if_neg (by simp [h])]

/-- A step that halts after the fetch updates no cell, so only the read of `b` is left to account for. -/
theorem accountedFor_of_halts {s t : State} {w : Word} {readB : List Transaction}
    (hs : s.status = .running) (hw : s.codeRead s.pc = some w) (heff : WordEffect w s t)
    (ht : t.status ≠ .running) (hb : ReadOfB s w readB) :
    AccountedFor s t (.codeRead s.pc w :: readB) := by
  have ha : UpdateOfA s t w [] := by rw [UpdateOfA, if_neg ht]
  simpa using accountedFor_of_parts hw hb ha fun addr _ => heff.cell_eq_of_halts hs ht addr

/-- A step that goes on has read and written cell `a`, and changes no other. -/
theorem accountedFor_of_stores {s : State} {w : Word} {readB : List Transaction}
    {f : Byte → Byte} (hs : s.status = .running) (hw : s.codeRead s.pc = some w)
    (hop : (splitWord w).opcode.toNat ≤ 4) (ha : (splitWord w).a.toNat < s.dataSize)
    (hb : ReadOfB s w readB) :
    AccountedFor s (s.fetched.update (splitWord w).a f)
      (.codeRead s.pc w :: (readB ++ updateTransactions s (splitWord w).a f)) := by
  have hx : s.cell (splitWord w).a.toNat = some (s.memRead (splitWord w).a) :=
    State.cell_eq_some.2 ⟨ha, rfl⟩
  have hr : (s.fetched.update (splitWord w).a f).cell (splitWord w).a.toNat =
      some (f (s.memRead (splitWord w).a)) := by
    rw [State.cell_update_self, State.cell_fetched, hx, Option.map_some]
  refine accountedFor_of_parts hw hb ?_ fun addr hwrites => ?_
  · rw [UpdateOfA, if_pos (by simpa using hs)]
    exact ⟨hop, _, _, hx, hr, rfl⟩
  · have hne : (splitWord w).a.toNat ≠ addr :=
      hwrites _ (f (s.memRead (splitWord w).a)) (by simp [updateTransactions])
    exact State.cell_update_of_ne s.fetched f hne.symm

theorem WordEffect.accountedFor {s t : State} {w : Word} (h : WordEffect w s t)
    (hs : s.status = .running) (hw : s.codeRead s.pc = some w) :
    AccountedFor s t (.codeRead s.pc w :: dataTransactions s w) := by
  have heff := h
  cases h with
  | aOut ha =>
    rw [dataTransactions_unresolved (resolve_a_out ha)]
    exact accountedFor_of_halts hs hw heff (by simp) (by rw [ReadOfB, if_neg (by omega)])
  | bOut ha hb haddr =>
    rw [dataTransactions_unresolved (hb ▸ resolve_b_out ha haddr)]
    obtain ⟨-, rfl⟩ := decodeSrc_eq_cell_iff.1 hb
    exact accountedFor_of_halts hs hw heff (by simp) (by rw [ReadOfB, if_neg (by omega)])
  | undefined ha hy hop =>
    rw [dataTransactions_undefined hop]
    exact accountedFor_of_halts hs hw heff (by simp) (readOfB_undefined hop)
  | dividesByZero ha hy hop =>
    have hdefined := definedOpcode_of_divides hop
    obtain ⟨i, hiop, -, hts⟩ := dataTransactions_defined hdefined ha hy
    rw [hts, executorTransactions_divides_by_zero (hiop ▸ hop), List.append_nil]
    exact accountedFor_of_halts hs hw heff (by simp) (readOfB_defined hdefined ha hy)
  | exits ha hy hop =>
    have hdefined : definedOpcode (splitWord w).opcode = true := by rw [hop]; rfl
    obtain ⟨i, hiop, -, hts⟩ := dataTransactions_defined hdefined ha hy
    rw [hts, executorTransactions_exit (hiop.trans hop), List.append_nil]
    exact accountedFor_of_halts hs hw heff (by simp) (readOfB_defined hdefined ha hy)
  | stores ha hy hop hdiv =>
    have hdefined := definedOpcode_of_arithmetic hop
    obtain ⟨i, hiop, hia, hts⟩ := dataTransactions_defined hdefined ha hy
    rw [hts, executorTransactions_stores (hiop ▸ hop) (hiop ▸ hdiv), hiop, hia]
    exact accountedFor_of_stores hs hw hop ha (readOfB_defined hdefined ha hy)

/-- Settles O39: past the end nothing is read, and below it each effect's transactions are the code
read, the needed read of `b`, and the update of `a` where the step goes on. -/
theorem transactionsAccountForTheStep : Obligations.TransactionsAccountForTheStep := by
  intro s t h
  obtain ⟨hs, ⟨hpast, rfl⟩ | ⟨w, hw, heff⟩⟩ := step_effect h
  · rw [transactions_past_end hs hpast]
    refine ⟨fun addr _ => rfl, ?_⟩
    rw [codeRead_of_ge hpast]
  · rw [transactions_fetched hs hw]
    exact heff.accountedFor hs hw

end Sys2Proof.Machine
end
